-- ==== Sys2Proof/Word.lean ====
section
/-! DEFINITION. The bit vectors of the hardware (spec/00_scope.md R6, R7; spec/30_encoding.md R46): bit 0 is the
least significant bit, and every value is unsigned. -/

namespace Sys2Proof

/-- A memory cell, a `V` register, a timer counter, the field `NN` (R12, R19, R21, R46). -/
abbrev Byte := BitVec 8

/-- The opcode, `I`, `pc` and a return address (R14, R15, R17, R45). -/
abbrev Word := BitVec 16

/-- The field `X` or `Y`: the number of a `V` register; every value names one (R12). -/
abbrev RegIdx := BitVec 4

/-- The field `N`, a row count, or the high nibble `op` (R46). -/
abbrev Nibble := BitVec 4

/-- The field `NNN`, a 12-bit address (R46). -/
abbrev Addr := BitVec 12

end Sys2Proof
end

