-- ==== Sys2Proof/Config.lean ====
section
/-! DEFINITION. The implementation parameters of spec/00_scope.md R6, each with the one value this hardware takes, and
the free value of the machine, the random byte of `CXNN` (spec/42_alu.md R90). -/

namespace Sys2Proof

/-- `MEM_SIZE`: bytes of memory, addresses 0 to 4095 (R6, R28). -/
abbrev Config.memSize : Nat := 4096

/-- `FONT_BASE`: where `load` puts the font (R6). -/
abbrev Config.fontBase : Nat := 0x000

/-- `PROG_BASE`: load origin and reset value of `pc` (R6). -/
abbrev Config.progBase : Nat := 0x200

/-- `NREGS`: the number of `V` registers (R6). -/
abbrev Config.nregs : Nat := 16

/-- `STACK_DEPTH`: the call stack's capacity in entries (R6; its literal is the spec's D3). -/
abbrev Config.stackDepth : Nat := 12

/-- `WIDTH`: display columns (R6, D24). -/
abbrev Config.width : Nat := 64

/-- `HEIGHT`: display rows (R6, D24). -/
abbrev Config.height : Nat := 32

/-- `VF_LAST`: the flag write comes after the result write, so it wins when `X` is `0xF` (R6, R78; the spec's
decision D10; log 5). -/
abbrev Config.vfLast : Bool := true

/-- `TICK_HZ`: the canonical rate of `tick`; no rule depends on it (R6, R117). -/
abbrev Config.tickHz : Nat := 60

/-- The number `0xF` of the flag register `VF` (R13). -/
abbrev Config.flagReg : RegIdx := 0xF

/-- The byte `rnd` that the `n`th draw of the machine gives (R90, U4). A FREE VALUE (DESIGN CHOICE of the form, log 4):
it has no body, so nothing can be proved of its value, and a statement holds for every byte. -/
opaque Config.randomByte : Nat → Byte

/-- The customary 80 font bytes of R127, which the spec marks as general knowledge. Data for a host that wants a font;
the font is an argument of `load` and no definition of the machine uses this (D17). -/
def Config.customaryFont : List Byte :=
  [0xF0, 0x90, 0x90, 0x90, 0xF0, 0x20, 0x60, 0x20, 0x20, 0x70, 0xF0, 0x10, 0xF0, 0x80, 0xF0, 0xF0, 0x10, 0xF0, 0x10, 0xF0] ++
  [0x90, 0x90, 0xF0, 0x10, 0x10, 0xF0, 0x80, 0xF0, 0x10, 0xF0, 0xF0, 0x80, 0xF0, 0x90, 0xF0, 0xF0, 0x10, 0x20, 0x40, 0x40] ++
  [0xF0, 0x90, 0xF0, 0x90, 0xF0, 0xF0, 0x90, 0xF0, 0x10, 0xF0, 0xF0, 0x90, 0xF0, 0x90, 0x90, 0xE0, 0x90, 0xE0, 0x90, 0xE0] ++
  [0xF0, 0x80, 0x80, 0x80, 0xF0, 0xE0, 0x90, 0x90, 0x90, 0xE0, 0xF0, 0x80, 0xF0, 0x80, 0xF0, 0xF0, 0x80, 0xF0, 0x80, 0x80]

end Sys2Proof
end

