-- ==== Sys2Proof/Syntax.lean ====
section
/-! DEFINITION. The instruction set: one constructor per row of spec/opcode_table.json (spec/30_encoding.md R50), the
operand fields of R46 as arguments. -/

namespace Sys2Proof

/-- The 25 instructions (R50). `x` and `y` are the register fields, `nn` the 8-bit immediate, `nnn` the 12-bit one, `n`
the row count. -/
inductive Instr where
  /-- `00E0`, `CLS` (R97). -/
  | cls
  /-- `00EE`, `RET` (R71). -/
  | ret
  /-- `1NNN`, `JP NNN` (R69). -/
  | jp (nnn : Addr)
  /-- `2NNN`, `CALL NNN` (R70). -/
  | call (nnn : Addr)
  /-- `3XNN`, `SE Vx, NN` (R72). -/
  | seImm (x : RegIdx) (nn : Byte)
  /-- `4XNN`, `SNE Vx, NN` (R73). -/
  | sneImm (x : RegIdx) (nn : Byte)
  /-- `5XY0`, `SE Vx, Vy` (R74). -/
  | seReg (x y : RegIdx)
  /-- `6XNN`, `LD Vx, NN` (R76). -/
  | ldImm (x : RegIdx) (nn : Byte)
  /-- `7XNN`, `ADD Vx, NN` (R77). -/
  | addImm (x : RegIdx) (nn : Byte)
  /-- `8XY0`, `LD Vx, Vy` (R79). -/
  | ldReg (x y : RegIdx)
  /-- `8XY1`, `OR Vx, Vy` (R80). -/
  | orReg (x y : RegIdx)
  /-- `8XY2`, `AND Vx, Vy` (R81). -/
  | andReg (x y : RegIdx)
  /-- `8XY3`, `XOR Vx, Vy` (R82). -/
  | xorReg (x y : RegIdx)
  /-- `8XY4`, `ADD Vx, Vy` (R83). -/
  | addReg (x y : RegIdx)
  /-- `8XY5`, `SUB Vx, Vy` (R84). -/
  | sub (x y : RegIdx)
  /-- `8XY6`, `SHR Vx` (R85); `y` is decoded and ignored (R55). -/
  | shr (x y : RegIdx)
  /-- `8XY7`, `SUBN Vx, Vy` (R86). -/
  | subn (x y : RegIdx)
  /-- `8XYE`, `SHL Vx` (R87); `y` is decoded and ignored (R55). -/
  | shl (x y : RegIdx)
  /-- `9XY0`, `SNE Vx, Vy` (R75). -/
  | sneReg (x y : RegIdx)
  /-- `ANNN`, `LD I, NNN` (R91). -/
  | ldI (nnn : Addr)
  /-- `CXNN`, `RND Vx, NN` (R89). -/
  | rnd (x : RegIdx) (nn : Byte)
  /-- `DXYN`, `DRW Vx, Vy, N` (R98). -/
  | drw (x y : RegIdx) (n : Nibble)
  /-- `FX1E`, `ADD I, Vx` (R92). -/
  | addI (x : RegIdx)
  /-- `FX55`, `LD [I], Vx` (R94). -/
  | storeRegs (x : RegIdx)
  /-- `FX65`, `LD Vx, [I]` (R95). -/
  | loadRegs (x : RegIdx)
  deriving DecidableEq, Repr

end Sys2Proof
end

