-- ==== Sys2Proof/WellFormed.lean ====
section
/-! DEFINITION. What a well-formed instruction is (spec/30_encoding.md R46, R48) and what well-formed arguments of
`load` are (spec/70_reset_and_hazards.md R124). -/

namespace Sys2Proof

/-- One operand of an instruction as a number, with the width of the field that carries it (R46). -/
structure Operand where
  value : Nat
  bits : Nat
  deriving DecidableEq, Repr

/-- The operand fits its field, so that the encoding drops no bit of it (R46). -/
def Operand.inRange (o : Operand) : Bool := decide (o.value < 2 ^ o.bits)

/-- The operands of an instruction and the widths of their fields (R46, R47). -/
def Instr.operands : Instr → List Operand
  | .cls => []
  | .ret => []
  | .jp nnn => [⟨nnn.toNat, 12⟩]
  | .call nnn => [⟨nnn.toNat, 12⟩]
  | .seImm x nn => [⟨x.toNat, 4⟩, ⟨nn.toNat, 8⟩]
  | .sneImm x nn => [⟨x.toNat, 4⟩, ⟨nn.toNat, 8⟩]
  | .seReg x y => [⟨x.toNat, 4⟩, ⟨y.toNat, 4⟩]
  | .ldImm x nn => [⟨x.toNat, 4⟩, ⟨nn.toNat, 8⟩]
  | .addImm x nn => [⟨x.toNat, 4⟩, ⟨nn.toNat, 8⟩]
  | .ldReg x y => [⟨x.toNat, 4⟩, ⟨y.toNat, 4⟩]
  | .orReg x y => [⟨x.toNat, 4⟩, ⟨y.toNat, 4⟩]
  | .andReg x y => [⟨x.toNat, 4⟩, ⟨y.toNat, 4⟩]
  | .xorReg x y => [⟨x.toNat, 4⟩, ⟨y.toNat, 4⟩]
  | .addReg x y => [⟨x.toNat, 4⟩, ⟨y.toNat, 4⟩]
  | .sub x y => [⟨x.toNat, 4⟩, ⟨y.toNat, 4⟩]
  | .shr x y => [⟨x.toNat, 4⟩, ⟨y.toNat, 4⟩]
  | .subn x y => [⟨x.toNat, 4⟩, ⟨y.toNat, 4⟩]
  | .shl x y => [⟨x.toNat, 4⟩, ⟨y.toNat, 4⟩]
  | .sneReg x y => [⟨x.toNat, 4⟩, ⟨y.toNat, 4⟩]
  | .ldI nnn => [⟨nnn.toNat, 12⟩]
  | .rnd x nn => [⟨x.toNat, 4⟩, ⟨nn.toNat, 8⟩]
  | .drw x y n => [⟨x.toNat, 4⟩, ⟨y.toNat, 4⟩, ⟨n.toNat, 4⟩]
  | .addI x => [⟨x.toNat, 4⟩]
  | .storeRegs x => [⟨x.toNat, 4⟩]
  | .loadRegs x => [⟨x.toNat, 4⟩]

/-- Every operand fits its field. The argument types of `Instr` have the widths of the fields and R48 makes every
value of a field legal, so every term of `Instr` passes (`Laws/Encoding.lean`, `wellFormed_all`). -/
def Instr.wellFormed (i : Instr) : Bool := i.operands.all Operand.inRange

/-- The precondition of `load` on its font: it "must fit before `0x200`" (R124 (a)). -/
def fontFits (font : List Byte) : Bool := decide (font.length ≤ Config.progBase)

/-- The check of `load` on its program: the last byte lies at 4095 or below (R124 (b)). -/
def programFits (program : List Byte) : Bool := decide (Config.progBase + program.length ≤ Config.memSize)

end Sys2Proof
end

