-- ==== Sys2Proof/Decode.lean ====
section
/-! DEFINITION. Decoding (spec/30_encoding.md R46 to R55), the opcode table as data (R50), and the encoder written from
the same table. -/

namespace Sys2Proof

/-- Why bytes give no instruction. -/
inductive DecodeError where
  /-- The word selects no row of the opcode table; it carries the raw opcode (R53). -/
  | unimplementedOpcode (w : Word)
  /-- Fewer than the two bytes of an instruction are there (R45). -/
  | truncated
  deriving DecidableEq, Repr

/-! The fields of the instruction word (R46). -/

/-- Bits 15:12, the high nibble (R46). -/
def opField (w : Word) : Nibble := w.extractLsb' 12 4

/-- Bits 11:8 (R46). -/
def xField (w : Word) : RegIdx := w.extractLsb' 8 4

/-- Bits 7:4 (R46). -/
def yField (w : Word) : RegIdx := w.extractLsb' 4 4

/-- Bits 3:0 (R46). -/
def nField (w : Word) : Nibble := w.extractLsb' 0 4

/-- Bits 7:0 (R46). -/
def nnField (w : Word) : Byte := w.extractLsb' 0 8

/-- Bits 11:0 (R46). -/
def nnnField (w : Word) : Addr := w.extractLsb' 0 12

/-- The second level of the dispatch in group 8, on `N` (R54). -/
def decodeGroup8 (w : Word) : Except DecodeError Instr :=
  match (nField w).toNat with
  | 0x0 => .ok (.ldReg (xField w) (yField w))
  | 0x1 => .ok (.orReg (xField w) (yField w))
  | 0x2 => .ok (.andReg (xField w) (yField w))
  | 0x3 => .ok (.xorReg (xField w) (yField w))
  | 0x4 => .ok (.addReg (xField w) (yField w))
  | 0x5 => .ok (.sub (xField w) (yField w))
  | 0x6 => .ok (.shr (xField w) (yField w))
  | 0x7 => .ok (.subn (xField w) (yField w))
  | 0xE => .ok (.shl (xField w) (yField w))
  | _ => .error (.unimplementedOpcode w)

/-- The second level of the dispatch in group F, on `NN` (R54). -/
def decodeGroupF (w : Word) : Except DecodeError Instr :=
  match (nnField w).toNat with
  | 0x1E => .ok (.addI (xField w))
  | 0x55 => .ok (.storeRegs (xField w))
  | 0x65 => .ok (.loadRegs (xField w))
  | _ => .error (.unimplementedOpcode w)

/-- The instruction a word selects, by the two-level dispatch on the high nibble (R49); group 0 matches whole words
(R51), groups 5 and 9 need `N = 0` (R52), every other word is refused by name (R53). -/
def decode (w : Word) : Except DecodeError Instr :=
  match (opField w).toNat with
  | 0x0 =>
    if w = 0x00E0 then .ok .cls
    else if w = 0x00EE then .ok .ret
    else .error (.unimplementedOpcode w)
  | 0x1 => .ok (.jp (nnnField w))
  | 0x2 => .ok (.call (nnnField w))
  | 0x3 => .ok (.seImm (xField w) (nnField w))
  | 0x4 => .ok (.sneImm (xField w) (nnField w))
  | 0x5 => if nField w = 0 then .ok (.seReg (xField w) (yField w)) else .error (.unimplementedOpcode w)
  | 0x6 => .ok (.ldImm (xField w) (nnField w))
  | 0x7 => .ok (.addImm (xField w) (nnField w))
  | 0x8 => decodeGroup8 w
  | 0x9 => if nField w = 0 then .ok (.sneReg (xField w) (yField w)) else .error (.unimplementedOpcode w)
  | 0xA => .ok (.ldI (nnnField w))
  | 0xC => .ok (.rnd (xField w) (nnField w))
  | 0xD => .ok (.drw (xField w) (yField w) (nField w))
  | 0xF => decodeGroupF w
  | _ => .error (.unimplementedOpcode w)

/-- The word whose high byte is `hi` and whose low byte is `lo` (R31). -/
def wordOfBytes (hi lo : Byte) : Word := hi ++ lo

/-- The high byte of a word, which lies at the lower address (R31, R44). -/
def hiByte (w : Word) : Byte := w.extractLsb' 8 8

/-- The low byte of a word, which lies at the higher address (R31, R44). -/
def loByte (w : Word) : Byte := w.extractLsb' 0 8

/-- The bytes of a word in the order memory holds them (R44). -/
def bytesOfWord (w : Word) : List Byte := [hiByte w, loByte w]

/-- Decoding from bytes in memory order: the instruction and the bytes after it. Every instruction is two bytes (R45). -/
def decodeBytes : List Byte → Except DecodeError (Instr × List Byte)
  | hi :: lo :: rest =>
    match decode (wordOfBytes hi lo) with
    | .ok i => .ok (i, rest)
    | .error e => .error e
  | [_] => .error .truncated
  | [] => .error .truncated

/-- The instruction the decoder reads from an instruction whose bits are `w`, numbered as spec/opcode_table.json numbers
them: bit 0 is the least significant bit of the one 16-bit word. -/
def decodeTableWord (nbits w : Nat) : Option Instr :=
  match decodeBytes (bytesOfWord (BitVec.ofNat 16 (w % 2 ^ nbits))) with
  | .ok (i, _) => some i
  | .error _ => none

/-! The encoder, from the formats of R47 and the patterns of R50. -/

/-- Format NNN: `op`, then a 12-bit immediate (R47). -/
def encodeNnn (op : Nibble) (nnn : Addr) : Word := op ++ nnn

/-- Format XNN: `op`, `X`, an 8-bit immediate (R47); format XKK has a constant there. -/
def encodeXnn (op : Nibble) (x : RegIdx) (nn : Byte) : Word := (op ++ x) ++ nn

/-- Format XYN: `op`, `X`, `Y`, `N` (R47); format XYK has a constant `N`. -/
def encodeXyn (op : Nibble) (x y : RegIdx) (n : Nibble) : Word := (op ++ x) ++ (y ++ n)

/-- The word of an instruction (R50). -/
def encode : Instr → Word
  | .cls => 0x00E0
  | .ret => 0x00EE
  | .jp nnn => encodeNnn 0x1 nnn
  | .call nnn => encodeNnn 0x2 nnn
  | .seImm x nn => encodeXnn 0x3 x nn
  | .sneImm x nn => encodeXnn 0x4 x nn
  | .seReg x y => encodeXyn 0x5 x y 0x0
  | .ldImm x nn => encodeXnn 0x6 x nn
  | .addImm x nn => encodeXnn 0x7 x nn
  | .ldReg x y => encodeXyn 0x8 x y 0x0
  | .orReg x y => encodeXyn 0x8 x y 0x1
  | .andReg x y => encodeXyn 0x8 x y 0x2
  | .xorReg x y => encodeXyn 0x8 x y 0x3
  | .addReg x y => encodeXyn 0x8 x y 0x4
  | .sub x y => encodeXyn 0x8 x y 0x5
  | .shr x y => encodeXyn 0x8 x y 0x6
  | .subn x y => encodeXyn 0x8 x y 0x7
  | .shl x y => encodeXyn 0x8 x y 0xE
  | .sneReg x y => encodeXyn 0x9 x y 0x0
  | .ldI nnn => encodeNnn 0xA nnn
  | .rnd x nn => encodeXnn 0xC x nn
  | .drw x y n => encodeXyn 0xD x y n
  | .addI x => encodeXnn 0xF x 0x1E
  | .storeRegs x => encodeXnn 0xF x 0x55
  | .loadRegs x => encodeXnn 0xF x 0x65

/-! The opcode map of R50 as data. -/

/-- A row of the opcode map: `w` selects it when `w & mask = match` (R50). -/
structure OpcodeRow where
  mnemonic : String
  value : Word
  mask : Word
  deriving DecidableEq, Repr

/-- `w & mask = match` (R50). -/
def OpcodeRow.selects (r : OpcodeRow) (w : Word) : Bool := w &&& r.mask == r.value

/-- The row of an instruction in R50, with its mnemonic as spec/opcode_table.json spells it. -/
def Instr.row : Instr → OpcodeRow
  | .cls => ⟨"CLS", 0x00E0, 0xFFFF⟩
  | .ret => ⟨"RET", 0x00EE, 0xFFFF⟩
  | .jp _ => ⟨"JP_NNN", 0x1000, 0xF000⟩
  | .call _ => ⟨"CALL_NNN", 0x2000, 0xF000⟩
  | .seImm _ _ => ⟨"SE_Vx__NN", 0x3000, 0xF000⟩
  | .sneImm _ _ => ⟨"SNE_Vx__NN", 0x4000, 0xF000⟩
  | .seReg _ _ => ⟨"SE_Vx__Vy", 0x5000, 0xF00F⟩
  | .ldImm _ _ => ⟨"LD_Vx__NN", 0x6000, 0xF000⟩
  | .addImm _ _ => ⟨"ADD_Vx__NN", 0x7000, 0xF000⟩
  | .ldReg _ _ => ⟨"LD_Vx__Vy", 0x8000, 0xF00F⟩
  | .orReg _ _ => ⟨"OR_Vx__Vy", 0x8001, 0xF00F⟩
  | .andReg _ _ => ⟨"AND_Vx__Vy", 0x8002, 0xF00F⟩
  | .xorReg _ _ => ⟨"XOR_Vx__Vy", 0x8003, 0xF00F⟩
  | .addReg _ _ => ⟨"ADD_Vx__Vy", 0x8004, 0xF00F⟩
  | .sub _ _ => ⟨"SUB_Vx__Vy", 0x8005, 0xF00F⟩
  | .shr _ _ => ⟨"SHR_Vx", 0x8006, 0xF00F⟩
  | .subn _ _ => ⟨"SUBN_Vx__Vy", 0x8007, 0xF00F⟩
  | .shl _ _ => ⟨"SHL_Vx", 0x800E, 0xF00F⟩
  | .sneReg _ _ => ⟨"SNE_Vx__Vy", 0x9000, 0xF00F⟩
  | .ldI _ => ⟨"LD_I__NNN", 0xA000, 0xF000⟩
  | .rnd _ _ => ⟨"RND_Vx__NN", 0xC000, 0xF000⟩
  | .drw _ _ _ => ⟨"DRW_Vx__Vy__N", 0xD000, 0xF000⟩
  | .addI _ => ⟨"ADD_I__Vx", 0xF01E, 0xF0FF⟩
  | .storeRegs _ => ⟨"LD__I___Vx", 0xF055, 0xF0FF⟩
  | .loadRegs _ => ⟨"LD_Vx___I", 0xF065, 0xF0FF⟩

/-- The 25 rows of R50, in its order. -/
def opcodeTable : List OpcodeRow :=
  [Instr.cls.row, Instr.ret.row, (Instr.jp 0).row, (Instr.call 0).row, (Instr.seImm 0 0).row,
   (Instr.sneImm 0 0).row, (Instr.seReg 0 0).row, (Instr.ldImm 0 0).row, (Instr.addImm 0 0).row,
   (Instr.ldReg 0 0).row, (Instr.orReg 0 0).row, (Instr.andReg 0 0).row, (Instr.xorReg 0 0).row,
   (Instr.addReg 0 0).row, (Instr.sub 0 0).row, (Instr.shr 0 0).row, (Instr.subn 0 0).row,
   (Instr.shl 0 0).row, (Instr.sneReg 0 0).row, (Instr.ldI 0).row, (Instr.rnd 0 0).row,
   (Instr.drw 0 0 0).row, (Instr.addI 0).row, (Instr.storeRegs 0).row, (Instr.loadRegs 0).row]

end Sys2Proof
end

