-- ==== Sys2Proof/Machine/Memory.lean ====
section
/-! DEFINITION. The 4096-byte memory (spec/10_state.md R19, spec/20_memory.md R28) as a list of cells in one canonical
form: addresses strictly rising, no cell equal to what an unlisted address reads as. -/

namespace Sys2Proof.Machine

/-- The memory's cells that differ from the reset contents, by rising address. -/
abbrev Memory := List Host.Cell

/-- What an address that nothing has written reads as: the reset contents of memory (R27; log 1, log 2). -/
def Memory.unlisted : Byte := 0

/-- The byte at an address (`MemRead(addr, 1)`, R8). Its callers have checked the bound (R35). -/
def Memory.read : Memory → Nat → Byte
  | [], _ => Memory.unlisted
  | (a', b') :: m, a => if a = a' then b' else Memory.read m a

/-- A byte store (`MemWrite(addr, 1, v)`, R8) that keeps the canonical form. Its callers have checked the bound. -/
def Memory.write : Memory → Nat → Byte → Memory
  | [], a, b => if b = Memory.unlisted then [] else [(a, b)]
  | (a', b') :: m, a, b =>
    if a < a' then
      if b = Memory.unlisted then (a', b') :: m else (a, b) :: (a', b') :: m
    else if a = a' then
      if b = Memory.unlisted then m else (a, b) :: m
    else (a', b') :: Memory.write m a b

/-- The canonical form: addresses strictly rising, every address inside the address space (R28), no cell that holds
what an unlisted address reads as. -/
abbrev Memory.wf (m : Memory) : Prop :=
  m.Pairwise (fun c d => c.1 < d.1) ∧ ∀ c ∈ m, c.1 < Config.memSize ∧ c.2 ≠ Memory.unlisted

/-- Consecutive byte stores from address `a` on, as `load` makes them (R125). -/
def Memory.writeBytes : Memory → Nat → List Byte → Memory
  | m, _, [] => m
  | m, a, b :: bs => Memory.writeBytes (Memory.write m a b) (a + 1) bs

end Sys2Proof.Machine
end

