-- ==== Sys2Proof/Machine/Screen.lean ====
section
/-! DEFINITION. The Display's 64 × 32 one-bit cells (spec/10_state.md R20, spec/44_display.md R96). The cell of index
`k = y * WIDTH + x` is bit `x` of row `y` (log 3). -/

namespace Sys2Proof.Machine

/-- The 32 rows of the Display, each 64 one-bit cells; column `x` is bit `x` (R20, R96; log 3). -/
abbrev Screen := Vector (BitVec 64) 32

/-- All cells 0 (R27, R97). -/
def Screen.blank : Screen := Vector.replicate 32 0

/-- `Display[k]`, for `k < WIDTH * HEIGHT` (R8, R20). -/
def Screen.cell (d : Screen) (k : Nat) : Bool :=
  if h : k < 2048 then (d[k / 64]'(by omega)).getLsbD (k % 64) else false

/-- One row with the bit of column `x` set to `b`. -/
def Screen.setBit (r : BitVec 64) (x : Nat) (b : Bool) : BitVec 64 :=
  if b then r ||| (1#64 <<< x) else r &&& ~~~(1#64 <<< x)

/-- `Display[k] <- b`, for `k < WIDTH * HEIGHT` (R8, R20). -/
def Screen.setCell (d : Screen) (k : Nat) (b : Bool) : Screen :=
  if h : k < 2048 then
    d.set (k / 64) (Screen.setBit (d[k / 64]'(by omega)) (k % 64) b) (by omega)
  else d

end Sys2Proof.Machine
end

