-- ==== Sys2Proof/Machine/State.lean ====
section
/-! DEFINITION. The machine's state as plain data, everything of spec/10_state.md R11, and its value after reset (R27). -/

namespace Sys2Proof.Machine

/-- `run_state` (R22, R138): the lifecycle of the machine, no privilege mode (R110). -/
inductive RunState where
  | running
  | paused
  | quit
  deriving DecidableEq, Repr

/-- What the `fault` latch holds once it is not `None` (R23, R102, R138). -/
inductive FaultValue where
  /-- `OutOfBounds(addr)`: `pc` of a failed fetch or `I + k` of a failed data access, a natural number (R34, R35). -/
  | outOfBounds (addr : Nat)
  /-- `StackOverflow`: `2NNN` with 12 valid entries (R70). -/
  | stackOverflow
  /-- `StackUnderflow`: `00EE` with no valid entry (R71). -/
  | stackUnderflow
  /-- `UnimplementedOpcode(opcode)`: the raw word selects no instruction (R53, R64). -/
  | unimplementedOpcode (opcode : Word)
  deriving DecidableEq, Repr

/-- The state of one machine instance (R11). -/
structure State where
  /-- `V[0..15]` (R12); `V[0xF]` is also the flag (R13). -/
  v : Vector Byte 16
  /-- The index register `I` (R14). -/
  i : Word
  /-- The program counter (R15). -/
  pc : Word
  /-- The call stack's slots, outside memory (R17). -/
  stack : Vector Word 12
  /-- The number of valid stack entries, 0 to 12 (R18). -/
  sp : Fin 13
  /-- `mem[0..4095]` (R19). -/
  mem : Memory
  /-- `Display[0..2047]` (R20). -/
  display : Screen
  /-- The timer counter `delay` (R21). -/
  delay : Byte
  /-- The timer counter `sound` (R21). -/
  sound : Byte
  /-- `keys[0..15]` (R24). -/
  keys : Vector Bool 16
  /-- `run_state` (R22). -/
  runState : RunState
  /-- The `fault` latch (R23); `none` is `None`. -/
  fault : Option FaultValue
  /-- The model's own field, not the spec's: how many random bytes have been drawn (R90; log 4). -/
  draws : Nat
  deriving DecidableEq, Repr

/-- The state after the command `reset` on a new instance (R27, R123). `pc`, `sp` and `runState` are the source's values,
the zeros are the spec's decision D2 and `fault` its D12 (log 1); `draws` is the model's (log 4). -/
def State.reset : State where
  v := Vector.replicate 16 0
  i := 0
  pc := 0x200
  stack := Vector.replicate 12 0
  sp := 0
  mem := []
  display := Screen.blank
  delay := 0
  sound := 0
  keys := Vector.replicate 16 false
  runState := .running
  fault := none
  draws := 0

/-- Why a step has no next state. The spec's own faults (R102) are NOT here: taking one is a next state (R66). -/
inductive Fault where
  /-- Raised by `step` alone, when `run_state = Quit`: the spec gives `step` no transition there, the state is stuck
  (R60, R115, U1). Safe: the hardware holds all state, and nothing can be proved of what follows (log 6). -/
  | stuckInQuit
  deriving DecidableEq, Repr

/-- Why an instruction has no meaning. -/
inductive Refusal where
  /-- Raised by `exec` for an instruction that has no meaning yet; no arm does (every instruction is modelled). Safe. -/
  | notModelled (mnemonic : String)
  deriving DecidableEq, Repr

/-- The outcome of one step or one instruction. -/
abbrev Result := Host.Outcome State Fault Refusal

end Sys2Proof.Machine
end

