-- ==== Sys2Proof/Machine/Ops.lean ====
section
/-! DEFINITION. The named operations over registers, memory, stack and Display (spec/00_scope.md R8), fetching and
advancing (spec/40_step_cycle.md R61, R62), and taking a fault (R66). -/

namespace Sys2Proof.Machine

/-- `V[x]` (R8, R12). -/
def State.reg (s : State) (x : RegIdx) : Byte := s.v[x.toNat]'x.isLt

/-- `V[x] <- b` (R8, R12). -/
def State.setReg (s : State) (x : RegIdx) (b : Byte) : State := { s with v := s.v.set x.toNat b x.isLt }

/-- `I <- w` (R8, R14). -/
def State.setI (s : State) (w : Word) : State := { s with i := w }

/-- `pc <- w` (R8, R15). -/
def State.setPc (s : State) (w : Word) : State := { s with pc := w }

/-- `mem[a]` (R8, R19); the callers check the bound. -/
def State.byte (s : State) (a : Nat) : Byte := Memory.read s.mem a

/-- `mem[a] <- b` (R8, R19); the callers check the bound. -/
def State.setByte (s : State) (a : Nat) (b : Byte) : State := { s with mem := Memory.write s.mem a b }

/-- `Display[k]` (R8, R20). -/
def State.pixel (s : State) (k : Nat) : Bool := Screen.cell s.display k

/-- `Display[k] <- b` (R8, R20). -/
def State.setPixel (s : State) (k : Nat) (b : Bool) : State := { s with display := Screen.setCell s.display k b }

/-- Every Display cell 0 (R97). -/
def State.clearDisplay (s : State) : State := { s with display := Screen.blank }

/-- The last valid address, 4095 (R28). -/
abbrev memTop : Nat := Config.memSize - 1

/-! Taking a fault. It is the whole trap entry of this hardware (R108); there is no return from it (R109). -/

/-- `raise f`: `fault <- f; run_state <- Quit`, and nothing else changes or is undone (R66, R105). -/
def raise (f : FaultValue) (s : State) : State := { s with fault := some f, runState := .quit }

/-! The step's frame. -/

/-- The fetch: `none` when `pc > 4094`, else the two bytes at `pc`, big-endian (R31, R34, R61). -/
def fetch (s : State) : Option Word :=
  if s.pc.toNat + 1 > memTop then none
  else some (wordOfBytes (s.byte s.pc.toNat) (s.byte (s.pc.toNat + 1)))

/-- `pc <- pc + 2` after a successful fetch (R62). -/
def advance (s : State) : State := s.setPc (s.pc + 2)

/-- A failed fetch: `OutOfBounds(pc)`, `pc` not advanced (R61). -/
def fetchFault (s : State) : State := raise (.outOfBounds s.pc.toNat) s

/-- A word that selects no instruction: `UnimplementedOpcode(opcode)` with `pc` advanced (R64). -/
def illegal (w : Word) (s : State) : State := raise (.unimplementedOpcode w) (advance s)

/-- `skip`: a further `pc <- pc + 2` (R67). -/
def skip (s : State) : State := s.setPc (s.pc + 2)

/-- A skip under a condition (R72 to R75). -/
def skipIf (c : Bool) (s : State) : State := if c then skip s else s

/-! The call stack (R17, R18). -/

/-- Push: `stack[sp] <- w; sp <- sp + 1`, legal only when `sp < 12`; `none` when the stack is full (R18). -/
def push (w : Word) (s : State) : Option State :=
  if h : s.sp.val < 12 then
    some { s with stack := s.stack.set s.sp.val w h, sp := ⟨s.sp.val + 1, Nat.succ_lt_succ h⟩ }
  else none

/-- Pop: `sp <- sp - 1; stack[sp]`, legal only when `sp > 0`; `none` when the stack is empty. The slot keeps its
content (R18; log 8). -/
def pop (s : State) : Option (Word × State) :=
  if h : 0 < s.sp.val then
    some (s.stack[s.sp.val - 1]'(by omega), { s with sp := ⟨s.sp.val - 1, by omega⟩ })
  else none

/-! Data accesses: one address after the other, each checked just before it is made (R35, R36, R93). -/

/-- `n` accesses at `base + k`, `base + k + 1`, ...: access `k` is `act k`; the first address above 4095 raises
`OutOfBounds` and ends the loop, the accesses before it keep their effect (R36, R93). -/
def accessLoop (base : Nat) (act : Nat → State → State) : Nat → Nat → State → State
  | 0, _, s => s
  | n + 1, k, s =>
    if base + k > memTop then raise (.outOfBounds (base + k)) s
    else accessLoop base act n (k + 1) (act k s)

/-- The bytes of `w` put where the next fetch reads them (R31, R44). -/
def placeWord (w : Word) (s : State) : State :=
  (s.setByte s.pc.toNat (hiByte w)).setByte (s.pc.toNat + 1) (loByte w)

end Sys2Proof.Machine
end

