-- ==== Sys2Proof/Machine/Flags.lean ====
section
/-! DEFINITION. The values the flag register receives (spec/10_state.md R13, spec/42_alu.md R83 to R88) and the order of the
result write and the flag write (R78). Every flag is computed from the operands before anything is written. -/

namespace Sys2Proof.Machine

/-- A flag value is exactly 0 or 1 (R88). -/
def flagByte (b : Bool) : Byte := if b then 1 else 0

/-- `8XY4`: 1 if `a + b > 255` (R83). -/
def carryFlag (a b : Byte) : Byte := flagByte (decide (a.toNat + b.toNat > 255))

/-- `8XY5`, `8XY7`: 1 if minuend `>=` subtrahend, the complement of borrow (R84, R86). -/
def noBorrowFlag (minuend subtrahend : Byte) : Byte := flagByte (decide (minuend.toNat ≥ subtrahend.toNat))

/-- `8XY6`: the bit shifted out, bit 0 (R85). -/
def shrFlag (a : Byte) : Byte := flagByte (a.getLsbD 0)

/-- `8XYE`: the bit shifted out, bit 7 (R87). -/
def shlFlag (a : Byte) : Byte := flagByte (a.getLsbD 7)

/-- `V[0xF] <- f` (R13). -/
def State.setFlag (s : State) (f : Byte) : State := s.setReg Config.flagReg f

/-- The result to `V[X]`, then the flag to `V[0xF]`, so that the flag wins when `X` is `0xF` (R78 (b), (c)); the order is
the parameter `VF_LAST` (log 5). -/
def writeResultAndFlag (x : RegIdx) (r f : Byte) (s : State) : State :=
  if Config.vfLast then (s.setReg x r).setFlag f else (s.setFlag f).setReg x r

end Sys2Proof.Machine
end

