-- ==== Sys2Proof/Machine/Alu.lean ====
section
/-! DEFINITION. The register load, ALU and random instructions (spec/42_alu.md R76 to R90). -/

namespace Sys2Proof.Machine

/-- `6XNN`: `V[X] <- NN` (R76). -/
def execLdImm (x : RegIdx) (nn : Byte) (s : State) : Result := .next (s.setReg x nn)

/-- `7XNN`: `V[X] <- (V[X] + NN) mod 256`, no flag (R77). -/
def execAddImm (x : RegIdx) (nn : Byte) (s : State) : Result := .next (s.setReg x (s.reg x + nn))

/-- `8XY0`: `V[X] <- V[Y]` (R79). -/
def execLdReg (x y : RegIdx) (s : State) : Result := .next (s.setReg x (s.reg y))

/-- `8XY1`: `V[X] <- V[X] | V[Y]`, no flag (R80). -/
def execOrReg (x y : RegIdx) (s : State) : Result := .next (s.setReg x (s.reg x ||| s.reg y))

/-- `8XY2`: `V[X] <- V[X] & V[Y]`, no flag (R81). -/
def execAndReg (x y : RegIdx) (s : State) : Result := .next (s.setReg x (s.reg x &&& s.reg y))

/-- `8XY3`: `V[X] <- V[X] XOR V[Y]`, no flag (R82). -/
def execXorReg (x y : RegIdx) (s : State) : Result := .next (s.setReg x (s.reg x ^^^ s.reg y))

/-- `8XY4`: the sum modulo 256, the carry to `V[0xF]` (R83). -/
def execAddReg (x y : RegIdx) (s : State) : Result :=
  .next (writeResultAndFlag x (s.reg x + s.reg y) (carryFlag (s.reg x) (s.reg y)) s)

/-- `8XY5`: `V[X] - V[Y]` modulo 256, no borrow to `V[0xF]` (R84). -/
def execSub (x y : RegIdx) (s : State) : Result :=
  .next (writeResultAndFlag x (s.reg x - s.reg y) (noBorrowFlag (s.reg x) (s.reg y)) s)

/-- `8XY6`: `V[X] >> 1`, the bit shifted out to `V[0xF]`; `Y` is ignored (R85, R55). -/
def execShr (x _y : RegIdx) (s : State) : Result :=
  .next (writeResultAndFlag x (s.reg x >>> 1) (shrFlag (s.reg x)) s)

/-- `8XY7`: `V[Y] - V[X]` modulo 256, no borrow to `V[0xF]` (R86). -/
def execSubn (x y : RegIdx) (s : State) : Result :=
  .next (writeResultAndFlag x (s.reg y - s.reg x) (noBorrowFlag (s.reg y) (s.reg x)) s)

/-- `8XYE`: `V[X] << 1` modulo 256, the bit shifted out to `V[0xF]`; `Y` is ignored (R87, R55). -/
def execShl (x _y : RegIdx) (s : State) : Result :=
  .next (writeResultAndFlag x (s.reg x <<< 1) (shlFlag (s.reg x)) s)

/-- The next random byte and the state that has drawn it (R90; a FREE VALUE, log 4). -/
def drawByte (s : State) : Byte × State := (Config.randomByte s.draws, { s with draws := s.draws + 1 })

/-- `CXNN` for a given random byte: `V[X] <- rnd & NN` (R89). -/
def storeRandom (x : RegIdx) (nn rnd : Byte) (s : State) : State := s.setReg x (rnd &&& nn)

/-- `CXNN`: `V[X] <- rnd & NN`, `rnd` the step's free byte (R89, R90; log 4). -/
def execRnd (x : RegIdx) (nn : Byte) (s : State) : Result :=
  .next (storeRandom x nn (drawByte s).1 (drawByte s).2)

end Sys2Proof.Machine
end

