-- ==== Sys2Proof/Machine/Operands.lean ====
section
/-! DEFINITION. The operand forms (spec/30_encoding.md R48): registers and immediates as they stand, a 12-bit immediate
zero-extended, the base plus offset of spec/43_index_memory.md R93, the sprite's coordinates of spec/44_display.md R98. -/

namespace Sys2Proof.Machine

/-- `zext_16(NNN)` (R8, R48). -/
def zextAddr (nnn : Addr) : Word := nnn.setWidth 16

/-- `zext_16(V[X])` (R8, R92). -/
def zextByte (b : Byte) : Word := b.setWidth 16

/-- The effective address `I + k`, a natural number that is never reduced (R9, R35, R93). -/
def effAddr (s : State) (k : Nat) : Nat := s.i.toNat + k

/-- The number of registers `V[0]` to `V[X]` that `FX55` and `FX65` transfer (R48). -/
def regCount (x : RegIdx) : Nat := x.toNat + 1

/-- The register of a transfer's index `k`, 0 to 15 (R48). -/
def regOf (k : Nat) : RegIdx := BitVec.ofNat 4 k

/-- A sprite's start column, `V[X] mod WIDTH` (R98). -/
def startColumn (s : State) (x : RegIdx) : Nat := (s.reg x).toNat % Config.width

/-- A sprite's start row, `V[Y] mod HEIGHT` (R98). -/
def startRow (s : State) (y : RegIdx) : Nat := (s.reg y).toNat % Config.height

/-- The index of the cell in column `x` and row `y` (R20, R96). -/
def cellIndex (x y : Nat) : Nat := y * Config.width + x

/-- The sprite bit of column `c` of a row byte, the most significant bit first (R96, R98). -/
def spriteBit (b : Byte) (c : Nat) : Bool := b.getLsbD (7 - c)

end Sys2Proof.Machine
end

