-- ==== Sys2Proof/Machine/Control.lean ====
section
/-! DEFINITION. The control transfer instructions (spec/41_control_flow.md R68 to R75). Each runs on the state whose `pc` is
already the address of the following instruction (R68). -/

namespace Sys2Proof.Machine

/-- `1NNN`: `pc <- zext_16(NNN)` (R69). -/
def execJp (nnn : Addr) (s : State) : Result := .next (s.setPc (zextAddr nnn))

/-- `2NNN`: push the advanced `pc`, then `pc <- zext_16(NNN)`; `StackOverflow` when the stack is full (R70). -/
def execCall (nnn : Addr) (s : State) : Result :=
  match push s.pc s with
  | none => .next (raise .stackOverflow s)
  | some t => .next (t.setPc (zextAddr nnn))

/-- `00EE`: `pc` from the popped entry; `StackUnderflow` when the stack is empty (R71). -/
def execRet (s : State) : Result :=
  match pop s with
  | none => .next (raise .stackUnderflow s)
  | some (w, t) => .next (t.setPc w)

/-- `3XNN`: skip if `V[X] = NN` (R72). -/
def execSeImm (x : RegIdx) (nn : Byte) (s : State) : Result := .next (skipIf (s.reg x == nn) s)

/-- `4XNN`: skip if `V[X] != NN` (R73). -/
def execSneImm (x : RegIdx) (nn : Byte) (s : State) : Result := .next (skipIf (s.reg x != nn) s)

/-- `5XY0`: skip if `V[X] = V[Y]` (R74). -/
def execSeReg (x y : RegIdx) (s : State) : Result := .next (skipIf (s.reg x == s.reg y) s)

/-- `9XY0`: skip if `V[X] != V[Y]` (R75). -/
def execSneReg (x y : RegIdx) (s : State) : Result := .next (skipIf (s.reg x != s.reg y) s)

end Sys2Proof.Machine
end

