-- ==== Sys2Proof/Machine/Draw.lean ====
section
/-! DEFINITION. The display instructions and the sprite-blit engine (spec/44_display.md R96 to R101). -/

namespace Sys2Proof.Machine

/-- `00E0`: every Display cell 0, `V[0xF]` untouched (R97). -/
def execCls (s : State) : Result := .next s.clearDisplay

/-- One sprite bit on the cell `k`: the flag becomes 1 if both the cell and the bit are 1, then the cell is XORed
(R98). -/
def blitCell (bit : Bool) (k : Nat) (s : State) : State :=
  (if s.pixel k && bit then s.setFlag 1 else s).setPixel k (s.pixel k ^^ bit)

/-- The bit loop of one sprite row: `n` bits remain, the next is bit number `c`, it falls on column `x` of row `y`; the
row ends early when `x` reaches `WIDTH` (R98). -/
def drawBits (b : Byte) (y : Nat) : Nat → Nat → Nat → State → State
  | 0, _, _, s => s
  | n + 1, c, x, s =>
    if x + 1 = Config.width then blitCell (spriteBit b c) (cellIndex x y) s
    else drawBits b y n (c + 1) (x + 1) (blitCell (spriteBit b c) (cellIndex x y) s)

/-- The row loop: `n` rows remain, the next is sprite row `row`, it falls on display row `y`. The address is checked
before the byte is read; the draw ends early when `y` reaches `HEIGHT` (R98). -/
def drawRows (base x0 : Nat) : Nat → Nat → Nat → State → State
  | 0, _, _, s => s
  | n + 1, row, y, s =>
    if base + row > memTop then raise (.outOfBounds (base + row)) s
    else if y + 1 = Config.height then drawBits (s.byte (base + row)) y 8 0 x0 s
    else drawRows base x0 n (row + 1) (y + 1) (drawBits (s.byte (base + row)) y 8 0 x0 s)

/-- `DXYN`: the coordinates are read, then `V[0xF] <- 0`, then the rows are drawn (R98). -/
def execDrw (x y : RegIdx) (n : Nibble) (s : State) : Result :=
  .next (drawRows (effAddr s 0) (startColumn s x) n.toNat 0 (startRow s y) (s.setFlag 0))

end Sys2Proof.Machine
end

