-- ==== Sys2Proof/Machine/Index.lean ====
section
/-! DEFINITION. The index register and memory transfer instructions (spec/43_index_memory.md R91 to R95). -/

namespace Sys2Proof.Machine

/-- `ANNN`: `I <- zext_16(NNN)` (R91). -/
def execLdI (nnn : Addr) (s : State) : Result := .next (s.setI (zextAddr nnn))

/-- `FX1E`: `I <- (I + zext_16(V[X])) mod 65536`, no flag, no fault (R92). -/
def execAddI (x : RegIdx) (s : State) : Result := .next (s.setI (s.i + zextByte (s.reg x)))

/-- One store of `FX55`: `mem[base + k] <- V[k]` (R94). -/
def storeReg (base k : Nat) (s : State) : State := s.setByte (base + k) (s.reg (regOf k))

/-- One load of `FX65`: `V[k] <- mem[base + k]` (R95). -/
def loadReg (base k : Nat) (s : State) : State := s.setReg (regOf k) (s.byte (base + k))

/-- `FX55`: `mem[I + k] <- V[k]` for `k` = 0 to `X`, each address checked first; `I` is read once and kept (R93, R94). -/
def execStoreRegs (x : RegIdx) (s : State) : Result :=
  .next (accessLoop (effAddr s 0) (storeReg (effAddr s 0)) (regCount x) 0 s)

/-- `FX65`: `V[k] <- mem[I + k]` for `k` = 0 to `X`, each address checked first; `I` is read once and kept (R93, R95). -/
def execLoadRegs (x : RegIdx) (s : State) : Result :=
  .next (accessLoop (effAddr s 0) (loadReg (effAddr s 0)) (regCount x) 0 s)

end Sys2Proof.Machine
end

