-- ==== Sys2Proof/Machine/Step.lean ====
section
/-! DEFINITION. The `step` command (spec/40_step_cycle.md R59 to R64), and the placing of one instruction where the next
step fetches it. -/

namespace Sys2Proof.Machine

/-- One step: the run-state gate (R60), the fetch (R61), the advance (R62), decode and dispatch (R63, R64). -/
def step (s : State) : Host.Outcome State Fault Refusal :=
  match s.runState with
  | .quit => .fault .stuckInQuit
  | .paused => .next s
  | .running =>
    match fetch s with
    | none => .next (fetchFault s)
    | some w =>
      match decode w with
      | .ok i => exec i (advance s)
      | .error _ => .next (illegal w s)

/-- `s` with the one 16-bit word `w` (its bits above `nbits` zero) stored at `pc`, big-endian (log 13). -/
def State.withFetchWord (s : State) (nbits w : Nat) : State := placeWord (BitVec.ofNat 16 (w % 2 ^ nbits)) s

end Sys2Proof.Machine
end

