-- ==== Sys2Proof/Machine/HostPorts.lean ====
section
/-! DEFINITION. The host's commands beside `step` (spec/60_exceptions.md R112 to R119, spec/70_reset_and_hazards.md R123 to
R129) and the outputs the host reads. -/

namespace Sys2Proof.Machine

/-- One decrement of a timer counter, saturating at 0 (R116). -/
def countDown (b : Byte) : Byte := if b = 0 then 0 else b - 1

/-- `tick`: both counters, in every run state (R116, R117). -/
def tick (s : State) : State := { s with delay := countDown s.delay, sound := countDown s.sound }

/-- `pause`: Running to Paused, nothing elsewhere (R113). -/
def pause (s : State) : State :=
  match s.runState with
  | .running => { s with runState := .paused }
  | .paused => s
  | .quit => s

/-- `resume`: Paused to Running, nothing elsewhere (R114). -/
def resume (s : State) : State :=
  match s.runState with
  | .running => s
  | .paused => { s with runState := .running }
  | .quit => s

/-- `set_keys(k)`: all 16 flags at once (R118). -/
def setKeys (k : Vector Bool 16) (s : State) : State := { s with keys := k }

/-- `reset`: every piece of the spec's state at its reset value, from any state (R112, R123). The model's counter of
drawn bytes goes on, so that the bytes drawn after a reset are free again (log 4). -/
def resetMachine (s : State) : State := { State.reset with draws := s.draws }

/-- What `load` answers (R124, R126). -/
inductive LoadResult where
  /-- The font and the program are in memory and `pc` is 0x200. -/
  | loaded (s : State)
  /-- `RomTooLarge(size)`, the requested program length; nothing changed. -/
  | romTooLarge (size : Nat)
  /-- The font does not fit below 0x200: the `load` is refused, nothing changed (log 7). -/
  | fontTooLong
  deriving DecidableEq, Repr

/-- `load(font, program)`: both checks come before any write; then the two copies and `pc <- 0x200`; nothing else changes
(R124 to R126, R129). -/
def load (font program : List Byte) (s : State) : LoadResult :=
  if font.length > Config.progBase then .fontTooLong
  else if Config.progBase + program.length > Config.memSize then .romTooLarge program.length
  else
    .loaded
      { s with
        mem := Memory.writeBytes (Memory.writeBytes s.mem Config.fontBase font) Config.progBase program
        pc := BitVec.ofNat 16 Config.progBase }

/-! The outputs (R102, R119). -/

/-- The numeric fault codes (R102). -/
def faultCode : Option FaultValue → Nat
  | none => 0
  | some (.outOfBounds _) => 1
  | some .stackOverflow => 2
  | some .stackUnderflow => 3
  | some (.unimplementedOpcode _) => 4

/-- The payload of the latch: an address for code 1, the raw opcode for code 4, absent for 0, 2 and 3 (R102, R138). -/
def faultPayload : Option FaultValue → Option Nat
  | none => none
  | some (.outOfBounds a) => some a
  | some .stackOverflow => none
  | some .stackUnderflow => none
  | some (.unimplementedOpcode w) => some w.toNat

/-- The numeric code of `RomTooLarge`, the error of `load` (R102). -/
def romTooLargeCode : Nat := 5

/-- What the host can read between commands (R119); `V`, `I`, `pc`, the stack and memory have no port. -/
structure Outputs where
  display : Screen
  delay : Byte
  sound : Byte
  /-- `sound > 0` (R119 (c)). -/
  beep : Bool
  runState : RunState
  faultCode : Nat
  faultPayload : Option Nat
  deriving DecidableEq, Repr

/-- The outputs of a state; reading them changes nothing (R119). -/
def outputs (s : State) : Outputs where
  display := s.display
  delay := s.delay
  sound := s.sound
  beep := decide (s.sound ≠ 0)
  runState := s.runState
  faultCode := faultCode s.fault
  faultPayload := faultPayload s.fault

end Sys2Proof.Machine
end

