-- ==== Sys2Proof/Machine/Commands.lean ====
section
/-! DEFINITION. The seven commands of the host as data (spec/00_scope.md R5) and the transition of each: one command at a
time, each one atomic (R10, spec/70_reset_and_hazards.md R137). -/

namespace Sys2Proof.Machine

/-- A command of the host (R5). The random byte of `step` is the machine's free value (log 4). -/
inductive Command where
  | reset
  | load (font program : List Byte)
  | step
  | tick
  | pause
  | resume
  | setKeys (k : Vector Bool 16)
  deriving DecidableEq, Repr

/-- What a command reports beside the state: `load` can fail and leave the machine as it was (R124, R126). -/
inductive Reply where
  | done
  | romTooLarge (size : Nat)
  | fontTooLong
  deriving DecidableEq, Repr

/-- One command (R112): the state after it and its report. Only `step` can be stuck (R115). -/
def runCommand (c : Command) (s : State) : Host.Outcome (State × Reply) Fault Refusal :=
  match c with
  | .reset => .next (resetMachine s, .done)
  | .load font program =>
    match load font program s with
    | .loaded t => .next (t, .done)
    | .romTooLarge size => .next (s, .romTooLarge size)
    | .fontTooLong => .next (s, .fontTooLong)
  | .step =>
    match step s with
    | .next t => .next (t, .done)
    | .fault f => .fault f
    | .refused r => .refused r
  | .tick => .next (tick s, .done)
  | .pause => .next (pause s, .done)
  | .resume => .next (resume s, .done)
  | .setKeys k => .next (setKeys k s, .done)

/-- A sequence of commands, in the order the host issues them (R137). -/
def runCommands : List Command → State → Host.Outcome State Fault Refusal
  | [], s => .next s
  | c :: cs, s =>
    match runCommand c s with
    | .next (t, _) => runCommands cs t
    | .fault f => .fault f
    | .refused r => .refused r

end Sys2Proof.Machine
end

