-- ==== Sys2Proof/Safety.lean ====
section
/-! DEFINITION. What the claims speak of: the invariant of the machine, the states a host can reach, a finished run, and the
frames of the statements. -/

namespace Sys2Proof.Machine

/-- The payload a latched fault can carry: an address from 4095 (a fetch at 4095) to 65550 (`I + k` at its largest, R102),
or an opcode that selects no instruction (R53). -/
def payloadOk : Option FaultValue → Prop
  | none => True
  | some (.outOfBounds a) => 4095 ≤ a ∧ a ≤ 65550
  | some .stackOverflow => True
  | some .stackUnderflow => True
  | some (.unimplementedOpcode w) => decode w = .error (.unimplementedOpcode w)

/-- The machine's invariant: memory in canonical form, `pc` at most 4098 and every valid return address at most 4096 (R16),
a fault latched exactly in `Quit` (R138), and its payload in range (R102). -/
structure State.Inv (s : State) : Prop where
  memory : s.mem.wf
  pcBound : s.pc.toNat ≤ 4098
  returns : ∀ k (h : k < 12), k < s.sp.val → (s.stack[k]).toNat ≤ 4096
  latch : s.fault ≠ none ↔ s.runState = .quit
  payload : payloadOk s.fault

/-- The states the host can reach from reset by commands in any order and ratio (R10, R136). -/
inductive Reachable : State → Prop where
  | reset : Reachable State.reset
  | command (c : Command) (s t : State) (r : Reply) : Reachable s → runCommand c s = .next (t, r) → Reachable t

/-- A finished run: Running, no fault, and the word at `pc` is a jump to itself (R132, the spec's D27). -/
def Finished (s : State) : Prop :=
  s.runState = .running ∧ s.fault = none ∧ fetch s = some (0x1000 ||| s.pc)

/-! Frames: the parts of the state, what it means that a part is as before, and that only some parts may have changed. -/

/-- The parts of the state a frame speaks of. -/
inductive Part where
  | regs
  | i
  | pc
  | stack
  | memory
  | display
  | delay
  | sound
  | keys
  | runState
  | fault
  | draws
  deriving DecidableEq, Repr

/-- The part is the same in both states. Memory is compared byte by byte, registers one by one. Of the stack, `sp` and the
valid entries are compared: no rule reads a slot at or above `sp`, and U6 asks a model to state nothing of one. -/
def Part.same (s t : State) : Part → Prop
  | .regs => ∀ k, t.reg k = s.reg k
  | .i => t.i = s.i
  | .pc => t.pc = s.pc
  | .stack => t.sp = s.sp ∧ ∀ k (h : k < 12), k < s.sp.val → t.stack[k] = s.stack[k]
  | .memory => ∀ a, t.byte a = s.byte a
  | .display => ∀ k, t.pixel k = s.pixel k
  | .delay => t.delay = s.delay
  | .sound => t.sound = s.sound
  | .keys => t.keys = s.keys
  | .runState => t.runState = s.runState
  | .fault => t.fault = s.fault
  | .draws => t.draws = s.draws

/-- Every part but those listed is the same in both states. -/
def OnlyChanges (ps : List Part) (s t : State) : Prop := ∀ p, p ∉ ps → p.same s t

/-- Every `V` register but those listed is the same in both states. -/
def SameRegsBut (xs : List RegIdx) (s t : State) : Prop := ∀ k, k ∉ xs → t.reg k = s.reg k

/-- The fault `f` is taken: `fault <- f; run_state <- Quit` (R66). -/
def Took (f : FaultValue) (t : State) : Prop := t.runState = .quit ∧ t.fault = some f

/-- The registers `V[0]` to `V[X]` of a transfer (R48). -/
def regsUpTo (x : RegIdx) : List RegIdx := (List.range (regCount x)).map regOf

/-- The registers an instruction may write: the column "written by" of R11, and the flag of R13. -/
def writesRegs : Instr → List RegIdx
  | .cls => []
  | .ret => []
  | .jp _ => []
  | .call _ => []
  | .seImm _ _ => []
  | .sneImm _ _ => []
  | .seReg _ _ => []
  | .ldImm x _ => [x]
  | .addImm x _ => [x]
  | .ldReg x _ => [x]
  | .orReg x _ => [x]
  | .andReg x _ => [x]
  | .xorReg x _ => [x]
  | .addReg x _ => [x, 0xF]
  | .sub x _ => [x, 0xF]
  | .shr x _ => [x, 0xF]
  | .subn x _ => [x, 0xF]
  | .shl x _ => [x, 0xF]
  | .sneReg _ _ => []
  | .ldI _ => []
  | .rnd x _ => [x]
  | .drw _ _ _ => [0xF]
  | .addI _ => []
  | .storeRegs _ => []
  | .loadRegs x => regsUpTo x

/-! The closed form of the draw (R99). -/

/-- `R` of R99: the number of sprite rows that lie on the Display. -/
def rowsOnDisplay (s : State) (y : RegIdx) (n : Nibble) : Nat := min n.toNat (Config.height - startRow s y)

/-- `C` of R99: the number of sprite columns that lie on the Display. -/
def columnsOnDisplay (s : State) (x : RegIdx) : Nat := min 8 (Config.width - startColumn s x)

/-- The cell that row `r`, column `c` of the sprite falls on (R99). -/
def spriteCell (s : State) (x y : RegIdx) (r c : Nat) : Nat := cellIndex (startColumn s x + c) (startRow s y + r)

/-- `s(r, c)` of R99: bit `7 - c` of `mem[I + r]`. -/
def spritePixel (s : State) (r c : Nat) : Bool := spriteBit (s.byte (effAddr s r)) c

/-- Some sprite bit 1 of the first `m` rows falls on a set cell (R98, R99). -/
def Collides (s : State) (x y : RegIdx) (m : Nat) : Prop :=
  ∃ r c, r < m ∧ c < columnsOnDisplay s x ∧ s.pixel (spriteCell s x y r c) = true ∧ spritePixel s r c = true

/-- The first `m` rows of the sprite are drawn from `s` to `t`: the cells under them are XORed with the sprite's bits,
every other cell is as before, and the flag register holds the collision flag (R98, R99). -/
def Drawn (s t : State) (x y : RegIdx) (m : Nat) : Prop :=
  (∀ r c, r < m → c < columnsOnDisplay s x →
    t.pixel (spriteCell s x y r c) = (s.pixel (spriteCell s x y r c) ^^ spritePixel s r c)) ∧
  (∀ k, (∀ r c, r < m → c < columnsOnDisplay s x → k ≠ spriteCell s x y r c) → t.pixel k = s.pixel k) ∧
  (Collides s x y m → t.reg 0xF = 1) ∧ (¬ Collides s x y m → t.reg 0xF = 0)

end Sys2Proof.Machine
end

