-- ==== Sys2Proof/Certificates/Slice0/Obligations.lean ====
section
/-! DEFINITION. The statements for the provers, each with the rules of spec/ it formalises. A meaning runs on the state whose
`pc` is already advanced (spec/40_step_cycle.md R62), so "`pc` unchanged" there means: the next sequential instruction. -/

open Sys2Proof Sys2Proof.Machine

/-! ## Encoding -/

/-- Decoding the bytes of an instruction, in memory order, gives the instruction back, for every operand (R45 to R50). -/
def Obligations.DecodeOfEncode : Prop :=
  ∀ i : Instr, i.wellFormed = true → decodeBytes (bytesOfWord (encode i)) = .ok (i, [])

/-- A word that decodes is the word of its instruction: no bit of a word is dropped (R46). -/
def Obligations.EncodeOfDecode : Prop :=
  ∀ (w : Word) (i : Instr), decode w = .ok i → encode i = w

/-- The two-level dispatch agrees with the opcode map: a word that decodes selects its instruction's row, a word that does
not is refused by its raw value and selects no row, and no word selects two rows (R49, R50, R53). -/
def Obligations.DispatchFollowsOpcodeMap : Prop :=
  (∀ (w : Word) (i : Instr), decode w = .ok i → i.row ∈ opcodeTable ∧ i.row.selects w = true) ∧
  (∀ (w : Word) (e : DecodeError), decode w = .error e →
    e = .unimplementedOpcode w ∧ ∀ r ∈ opcodeTable, r.selects w = false) ∧
  (∀ (w : Word), ∀ r ∈ opcodeTable, ∀ r' ∈ opcodeTable, r.selects w = true → r'.selects w = true → r = r')

/-- Words written out from the opcode map and from spec/95_test_vectors.md 2.1 decode to what they stand for. -/
def Obligations.SampleWordsDecode : Prop :=
  decode 0x00E0 = .ok .cls ∧ decode 0x00EE = .ok .ret ∧ decode 0x1204 = .ok (.jp 0x204) ∧
  decode 0x8AB6 = .ok (.shr 0xA 0xB) ∧ decode 0xD012 = .ok (.drw 0 1 2) ∧ decode 0xFE65 = .ok (.loadRegs 0xE) ∧
  decode 0x3100 = .ok (.seImm 1 0x00) ∧ decode 0xC10F = .ok (.rnd 1 0x0F) ∧ decode 0xF41E = .ok (.addI 4) ∧
  decode 0xFFFF = .error (.unimplementedOpcode 0xFFFF) ∧ decode 0x01E0 = .error (.unimplementedOpcode 0x01E0) ∧
  decode 0x5121 = .error (.unimplementedOpcode 0x5121)

/-- The fields of a word by the formulas of R46, and how they overlap. -/
def Obligations.FieldsOfAWord : Prop :=
  ∀ w : Word,
    (opField w).toNat = w.toNat >>> 12 ∧ (xField w).toNat = (w.toNat >>> 8) &&& 0xF ∧
    (yField w).toNat = (w.toNat >>> 4) &&& 0xF ∧ (nField w).toNat = w.toNat &&& 0xF ∧
    (nnField w).toNat = w.toNat &&& 0xFF ∧ (nnnField w).toNat = w.toNat &&& 0xFFF ∧
    (nnnField w).toNat = (xField w).toNat * 256 + (nnField w).toNat ∧
    (nnField w).toNat = (yField w).toNat * 16 + (nField w).toNat

/-! ## The step -/

/-- A step in `Running` runs the instruction the word at `pc` decodes to, on the state whose `pc` is advanced by 2; the
advance does not overflow (R59, R62). Around the meaning the step does nothing else. -/
def Obligations.StepRunsDecodedInstruction : Prop :=
  ∀ (s : State) (w : Word) (i : Instr), s.runState = .running → fetch s = some w → decode w = .ok i → i.wellFormed = true →
    step s = exec i (advance s) ∧ (advance s).pc.toNat = s.pc.toNat + 2 ∧ OnlyChanges [.pc] s (advance s)

/-- The fetch of a step in `Running`: with `pc > 4094` the step raises `OutOfBounds(pc)` and changes nothing else, `pc`
included; otherwise the opcode is `mem[pc] * 256 + mem[pc + 1]`, as memory is now (R61). -/
def Obligations.FetchIsBoundedAndBigEndian : Prop :=
  ∀ s : State, s.runState = .running →
    (4094 < s.pc.toNat →
      ∃ t, step s = .next t ∧ Took (.outOfBounds s.pc.toNat) t ∧ OnlyChanges [.runState, .fault] s t) ∧
    (s.pc.toNat ≤ 4094 →
      ∃ w, fetch s = some w ∧ w.toNat = (s.byte s.pc.toNat).toNat * 256 + (s.byte (s.pc.toNat + 1)).toNat)

/-- Dispatch executes the instruction whose row the opcode satisfies; if no row matches, `UnimplementedOpcode(opcode)` is
raised with the raw word, `pc` advanced by 2 and nothing else changed (R64). -/
def Obligations.DispatchOrUnimplementedOpcode : Prop :=
  ∀ (s : State) (w : Word), s.runState = .running → fetch s = some w →
    (∀ r ∈ opcodeTable, r.selects w = true → ∃ i, i.row = r ∧ encode i = w ∧ step s = exec i (advance s)) ∧
    ((∀ r ∈ opcodeTable, r.selects w = false) →
      ∃ t, step s = .next t ∧ Took (.unimplementedOpcode w) t ∧ t.pc.toNat = s.pc.toNat + 2 ∧
        OnlyChanges [.pc, .runState, .fault] s t)

/-- The run-state gate: a step in `Paused` changes nothing, a step in `Quit` has no next state. The second is the spec's
decision D13 (log 6). -/
def Obligations.RunStateGate : Prop :=
  ∀ s : State, (s.runState = .paused → step s = .next s) ∧ (s.runState = .quit → step s = .fault .stuckInQuit)

/-! ## Reset and the invariant -/

/-- What reset leaves. `pc`, `sp` and `run_state` are the source's values; the zeros are the spec's decision D2 and the empty
latch its D12 (log 1). Nothing is said of stack slots (U6). -/
def Obligations.ResetState : Prop :=
  State.reset.pc = 0x200 ∧ State.reset.sp = 0 ∧ State.reset.runState = .running ∧ State.reset.fault = none ∧
  (∀ x, State.reset.reg x = 0) ∧ State.reset.i = 0 ∧ (∀ a, State.reset.byte a = 0) ∧
  (∀ k, State.reset.pixel k = false) ∧ State.reset.delay = 0 ∧ State.reset.sound = 0 ∧
  (∀ k (h : k < 16), State.reset.keys[k] = false)

/-- The reset state meets the invariant. -/
def Obligations.ResetMeetsInvariant : Prop := State.reset.Inv

/-- Every step keeps the invariant: memory canonical and inside the address space, `pc` at most 4098, return addresses at
most 4096, a fault latched exactly in `Quit`, its payload in range (R16, R102, R138). -/
def Obligations.StepKeepsInvariant : Prop :=
  ∀ s t : State, s.Inv → step s = .next t → t.Inv

/-- Every command of the host keeps the invariant (R112). -/
def Obligations.CommandsKeepInvariant : Prop :=
  ∀ (c : Command) (s t : State) (r : Reply), s.Inv → runCommand c s = .next (t, r) → t.Inv

/-- In every state the host can reach, by any commands in any order and ratio, `pc` is at most 4098, a fault is latched
exactly in `Quit`, and memory is canonical (R16, R138). -/
def Obligations.ReachableStatesMeetInvariant : Prop :=
  ∀ s : State, Reachable s → s.pc.toNat ≤ 4098 ∧ (s.fault ≠ none ↔ s.runState = .quit) ∧ s.mem.wf

/-- After reset alone, the first step fetches `0x0000`, which is illegal (R131; rests on the spec's D2, log 1). -/
def Obligations.RunningWithoutLoad : Prop :=
  ∃ t, step State.reset = .next t ∧ Took (.unimplementedOpcode 0x0000) t ∧ t.pc = 0x202 ∧
    OnlyChanges [.pc, .runState, .fault] State.reset t

/-! ## Whole-machine rules, over every instruction -/

/-- An instruction writes no `V` register but its destinations and, for the six instructions of R13, the flag register. -/
def Obligations.InstructionsWriteOnlyTheirRegisters : Prop :=
  ∀ (i : Instr) (s t : State), exec i s = .next t → SameRegsBut (writesRegs i) s t

/-- Only `2NNN` and `00EE` change the stack (R17). -/
def Obligations.OnlyCallAndReturnChangeTheStack : Prop :=
  ∀ (i : Instr) (s t : State), exec i s = .next t → (∀ nnn, i ≠ .call nnn) → i ≠ .ret → Part.stack.same s t

/-- The Display is "Mutated only by the clear opcode and the sprite-draw opcode" (R20). -/
def Obligations.OnlyClearAndDrawChangeTheDisplay : Prop :=
  ∀ (i : Instr) (s t : State), exec i s = .next t → i ≠ .cls → (∀ x y n, i ≠ .drw x y n) → Part.display.same s t

/-- Only `FX55` writes memory (R43). -/
def Obligations.OnlyStoreChangesMemory : Prop :=
  ∀ (i : Instr) (s t : State), exec i s = .next t → (∀ x, i ≠ .storeRegs x) → Part.memory.same s t

/-- Only `ANNN` and `FX1E` write `I` (R14). -/
def Obligations.OnlyIndexInstructionsChangeI : Prop :=
  ∀ (i : Instr) (s t : State), exec i s = .next t → (∀ nnn, i ≠ .ldI nnn) → (∀ x, i ≠ .addI x) → t.i = s.i

/-- Only jumps, calls, returns and skips write `pc`; after every other instruction it is the address of the next sequential
instruction (R62). -/
def Obligations.OnlyControlTransfersChangePc : Prop :=
  ∀ (i : Instr) (s t : State), exec i s = .next t → (∀ nnn, i ≠ .jp nnn) → (∀ nnn, i ≠ .call nnn) → i ≠ .ret →
    (∀ x nn, i ≠ .seImm x nn) → (∀ x nn, i ≠ .sneImm x nn) → (∀ x y, i ≠ .seReg x y) → (∀ x y, i ≠ .sneReg x y) →
    t.pc = s.pc

/-- Timers and keypad can neither influence a step nor be changed by one (R21, R24, R117, R118): with other counters and
other keys, a step does the same and leaves them as they are. -/
def Obligations.TimersAndKeysAreInvisible : Prop :=
  ∀ (s t : State) (d e : Byte) (k : Vector Bool 16), step s = .next t →
    step { s with delay := d, sound := e, keys := k } = .next { t with delay := d, sound := e, keys := k }

/-- `tick` and `step` commute (R117; that `tick` acts in every run state is the spec's D15). -/
def Obligations.TickAndStepCommute : Prop :=
  ∀ s : State,
    (∀ t, step s = .next t → step (tick s) = .next (tick t)) ∧
    (∀ f, step s = .fault f → step (tick s) = .fault f)

/-- Only `CXNN` reads the random byte: a step that runs any other instruction does not depend on the bytes drawn so far
(R59, R90; the count of drawn bytes is the model's, log 4). -/
def Obligations.OnlyRandomReadsTheRandomByte : Prop :=
  ∀ (i : Instr) (s t : State) (n : Nat), (∀ x nn, i ≠ .rnd x nn) → exec i s = .next t →
    exec i { s with draws := n } = .next { t with draws := n }

/-- The table of R66: a step from `Running` that ends in `Quit` failed its fetch with `pc` unchanged and nothing else done;
or `pc` is advanced by 2 and the word was illegal, or a call on a full stack, or a return on an empty one, each with
nothing else done; or `FX55`, `FX65` or `DXYN` met an address above 4095: `OutOfBounds` with the first such address, the
bytes (in a memory of canonical form), registers or rows below it done and no other byte, register or cell touched. That a data access faults so and keeps
what was done is the spec's decisions D5 and D6 (log 9). -/
def Obligations.FaultsArePrecise : Prop :=
  ∀ s t : State, s.runState = .running → step s = .next t → t.runState = .quit →
    (4094 < s.pc.toNat ∧ t.fault = some (.outOfBounds s.pc.toNat) ∧ OnlyChanges [.runState, .fault] s t) ∨
    (∃ w, fetch s = some w ∧ t.pc.toNat = s.pc.toNat + 2 ∧
      ((decode w = .error (.unimplementedOpcode w) ∧ t.fault = some (.unimplementedOpcode w) ∧
          OnlyChanges [.pc, .runState, .fault] s t) ∨
       (∃ nnn, decode w = .ok (.call nnn) ∧ s.sp.val = 12 ∧ t.fault = some .stackOverflow ∧
          OnlyChanges [.pc, .runState, .fault] s t) ∨
       (decode w = .ok .ret ∧ s.sp.val = 0 ∧ t.fault = some .stackUnderflow ∧
          OnlyChanges [.pc, .runState, .fault] s t) ∨
       (∃ x, decode w = .ok (.storeRegs x) ∧ 4095 < effAddr s x.toNat ∧
          t.fault = some (.outOfBounds (max (effAddr s 0) 4096)) ∧
          (s.mem.wf → ∀ k, k ≤ x.toNat → effAddr s k ≤ 4095 → t.byte (effAddr s k) = s.reg (regOf k)) ∧
          (s.mem.wf → ∀ a, (∀ k, k ≤ x.toNat → effAddr s k ≤ 4095 → a ≠ effAddr s k) → t.byte a = s.byte a) ∧
          OnlyChanges [.pc, .memory, .runState, .fault] s t) ∨
       (∃ x, decode w = .ok (.loadRegs x) ∧ 4095 < effAddr s x.toNat ∧
          t.fault = some (.outOfBounds (max (effAddr s 0) 4096)) ∧
          (∀ k, k ≤ x.toNat → effAddr s k ≤ 4095 → t.reg (regOf k) = s.byte (effAddr s k)) ∧
          (∀ k, k ≤ 15 → (x.toNat < k ∨ 4095 < effAddr s k) → t.reg (regOf k) = s.reg (regOf k)) ∧
          OnlyChanges [.pc, .regs, .runState, .fault] s t) ∨
       (∃ x y n, decode w = .ok (.drw x y n) ∧ 0 < rowsOnDisplay s y n ∧
          4095 < effAddr s (rowsOnDisplay s y n - 1) ∧
          t.fault = some (.outOfBounds (max (effAddr s 0) 4096)) ∧ Drawn s t x y (4096 - effAddr s 0) ∧
          SameRegsBut [0xF] s t ∧ OnlyChanges [.pc, .regs, .display, .runState, .fault] s t)))

/-! ## Control transfer -/

/-- `1NNN`: its words, and `pc` is `NNN`, nothing else changes (R69). -/
def Obligations.JumpSetsPc : Prop :=
  ∀ (nnn : Addr) (s : State), decode (encodeNnn 0x1 nnn) = .ok (.jp nnn) ∧
    ∃ t, exec (.jp nnn) s = .next t ∧ t.pc.toNat = nnn.toNat ∧ OnlyChanges [.pc] s t

/-- `2NNN` with room on the stack: the advanced `pc` is the new top entry, the valid entries below are as before, `sp` is one
more, `pc` is `NNN` (R70). -/
def Obligations.CallPushesReturnAddress : Prop :=
  ∀ (nnn : Addr) (s : State) (h : s.sp.val < 12),
    ∃ t, exec (.call nnn) s = .next t ∧ t.pc.toNat = nnn.toNat ∧ t.sp.val = s.sp.val + 1 ∧ t.stack[s.sp.val] = s.pc ∧
      (∀ k (hk : k < 12), k < s.sp.val → t.stack[k] = s.stack[k]) ∧ OnlyChanges [.pc, .stack] s t

/-- `2NNN` on a full stack: `StackOverflow`; nothing is pushed, `pc` keeps the advanced value (R70). -/
def Obligations.CallOnFullStackFaults : Prop :=
  ∀ (nnn : Addr) (s : State), s.sp.val = 12 →
    ∃ t, exec (.call nnn) s = .next t ∧ Took .stackOverflow t ∧ OnlyChanges [.runState, .fault] s t

/-- `00EE` with a valid entry: `pc` is the top entry, `sp` is one less, the valid entries that remain are as before (R71). -/
def Obligations.ReturnPopsPc : Prop :=
  ∀ (s : State) (h : 0 < s.sp.val),
    ∃ t, exec .ret s = .next t ∧ t.pc = s.stack[s.sp.val - 1]'(by have := s.sp.isLt; omega) ∧
      t.sp.val = s.sp.val - 1 ∧ (∀ k (hk : k < 12), k < t.sp.val → t.stack[k] = s.stack[k]) ∧
      OnlyChanges [.pc, .stack] s t

/-- `00EE` on an empty stack: `StackUnderflow`; `pc` keeps the advanced value (R71). -/
def Obligations.ReturnOnEmptyStackFaults : Prop :=
  ∀ s : State, s.sp.val = 0 →
    ∃ t, exec .ret s = .next t ∧ Took .stackUnderflow t ∧ OnlyChanges [.runState, .fault] s t

/-- A call followed by a return, each in its step, goes back to the instruction after the call, with the stack as before
(R70's round trip). -/
def Obligations.CallThenReturnRestores : Prop :=
  ∀ (nnn : Addr) (s : State), s.sp.val < 12 →
    ∃ t u, exec (.call nnn) s = .next t ∧ exec .ret (advance t) = .next u ∧ u.pc = s.pc ∧ OnlyChanges [] s u

/-- The four skips: their words, `5XYN` and `9XYN` with `N` not 0 being none of theirs; `pc` is a further 2 on exactly when
the condition holds, nothing else changes (R72 to R75). -/
def Obligations.SkipsOnCondition : Prop :=
  (∀ (x : RegIdx) (nn : Byte), decode (encodeXnn 0x3 x nn) = .ok (.seImm x nn) ∧
    decode (encodeXnn 0x4 x nn) = .ok (.sneImm x nn)) ∧
  (∀ (x y : RegIdx) (n : Nibble),
    decode (encodeXyn 0x5 x y n) =
      (if n = 0 then .ok (.seReg x y) else .error (.unimplementedOpcode (encodeXyn 0x5 x y n))) ∧
    decode (encodeXyn 0x9 x y n) =
      (if n = 0 then .ok (.sneReg x y) else .error (.unimplementedOpcode (encodeXyn 0x9 x y n)))) ∧
  (∀ (x : RegIdx) (nn : Byte) (s : State), ∃ t, exec (.seImm x nn) s = .next t ∧
    t.pc = (if s.reg x = nn then s.pc + 2 else s.pc) ∧ OnlyChanges [.pc] s t) ∧
  (∀ (x : RegIdx) (nn : Byte) (s : State), ∃ t, exec (.sneImm x nn) s = .next t ∧
    t.pc = (if s.reg x ≠ nn then s.pc + 2 else s.pc) ∧ OnlyChanges [.pc] s t) ∧
  (∀ (x y : RegIdx) (s : State), ∃ t, exec (.seReg x y) s = .next t ∧
    t.pc = (if s.reg x = s.reg y then s.pc + 2 else s.pc) ∧ OnlyChanges [.pc] s t) ∧
  (∀ (x y : RegIdx) (s : State), ∃ t, exec (.sneReg x y) s = .next t ∧
    t.pc = (if s.reg x ≠ s.reg y then s.pc + 2 else s.pc) ∧ OnlyChanges [.pc] s t)

/-! ## Register loads and arithmetic -/

/-- `6XNN` and `7XNN`: their words, and `V[X]` is `NN`, or the sum modulo 256; no flag is written, so every other register
is as before (R76, R77). -/
def Obligations.ImmediateLoadAndAdd : Prop :=
  (∀ (x : RegIdx) (nn : Byte), decode (encodeXnn 0x6 x nn) = .ok (.ldImm x nn) ∧
    decode (encodeXnn 0x7 x nn) = .ok (.addImm x nn)) ∧
  (∀ (x : RegIdx) (nn : Byte) (s : State), ∃ t, exec (.ldImm x nn) s = .next t ∧ t.reg x = nn ∧
    SameRegsBut [x] s t ∧ OnlyChanges [.regs] s t) ∧
  (∀ (x : RegIdx) (nn : Byte) (s : State), ∃ t, exec (.addImm x nn) s = .next t ∧
    (t.reg x).toNat = ((s.reg x).toNat + nn.toNat) % 256 ∧ SameRegsBut [x] s t ∧ OnlyChanges [.regs] s t)

/-- `8XY0` to `8XY3`: their words, and the copy and the three logical operations, bit by bit; no flag is written
(R79 to R82). -/
def Obligations.CopyAndLogic : Prop :=
  ∀ (x y : RegIdx) (s : State),
    (decode (encodeXyn 0x8 x y 0x0) = .ok (.ldReg x y) ∧ decode (encodeXyn 0x8 x y 0x1) = .ok (.orReg x y) ∧
      decode (encodeXyn 0x8 x y 0x2) = .ok (.andReg x y) ∧ decode (encodeXyn 0x8 x y 0x3) = .ok (.xorReg x y)) ∧
    (∃ t, exec (.ldReg x y) s = .next t ∧ t.reg x = s.reg y ∧ SameRegsBut [x] s t ∧ OnlyChanges [.regs] s t) ∧
    (∃ t, exec (.orReg x y) s = .next t ∧
      (∀ j, (t.reg x).getLsbD j = ((s.reg x).getLsbD j || (s.reg y).getLsbD j)) ∧
      SameRegsBut [x] s t ∧ OnlyChanges [.regs] s t) ∧
    (∃ t, exec (.andReg x y) s = .next t ∧
      (∀ j, (t.reg x).getLsbD j = ((s.reg x).getLsbD j && (s.reg y).getLsbD j)) ∧
      SameRegsBut [x] s t ∧ OnlyChanges [.regs] s t) ∧
    (∃ t, exec (.xorReg x y) s = .next t ∧
      (∀ j, (t.reg x).getLsbD j = ((s.reg x).getLsbD j ^^ (s.reg y).getLsbD j)) ∧
      SameRegsBut [x] s t ∧ OnlyChanges [.regs] s t)

/-- `8XY4`: the sum modulo 256, and 1 in `V[0xF]` exactly when it exceeds 255 (R83, R88). That the flag wins when `X` is
`0xF` is the spec's decision D10 (R78; log 5). -/
def Obligations.AddSetsCarry : Prop :=
  ∀ (x y : RegIdx) (s : State), ∃ t, exec (.addReg x y) s = .next t ∧
    (x ≠ 0xF → (t.reg x).toNat =
      if (s.reg x).toNat + (s.reg y).toNat ≤ 255 then (s.reg x).toNat + (s.reg y).toNat
      else (s.reg x).toNat + (s.reg y).toNat - 256) ∧
    (t.reg 0xF).toNat = (if (s.reg x).toNat + (s.reg y).toNat > 255 then 1 else 0) ∧
    SameRegsBut [x, 0xF] s t ∧ OnlyChanges [.regs] s t

/-- `8XY5` and `8XY7`: the difference modulo 256, and 1 in `V[0xF]` exactly when nothing was borrowed (R84, R86, R88). That
the flag wins when `X` is `0xF` is the spec's decision D10 (R78; log 5). -/
def Obligations.SubtractionsSetNoBorrow : Prop :=
  ∀ (x y : RegIdx) (s : State),
    (∃ t, exec (.sub x y) s = .next t ∧
      (x ≠ 0xF → (t.reg x).toNat =
        if (s.reg y).toNat ≤ (s.reg x).toNat then (s.reg x).toNat - (s.reg y).toNat
        else (s.reg x).toNat + 256 - (s.reg y).toNat) ∧
      (t.reg 0xF).toNat = (if (s.reg y).toNat ≤ (s.reg x).toNat then 1 else 0) ∧
      SameRegsBut [x, 0xF] s t ∧ OnlyChanges [.regs] s t) ∧
    (∃ t, exec (.subn x y) s = .next t ∧
      (x ≠ 0xF → (t.reg x).toNat =
        if (s.reg x).toNat ≤ (s.reg y).toNat then (s.reg y).toNat - (s.reg x).toNat
        else (s.reg y).toNat + 256 - (s.reg x).toNat) ∧
      (t.reg 0xF).toNat = (if (s.reg x).toNat ≤ (s.reg y).toNat then 1 else 0) ∧
      SameRegsBut [x, 0xF] s t ∧ OnlyChanges [.regs] s t)

/-- `8XY6` and `8XYE`: half of `V[X]`, or its double modulo 256, and the bit shifted out in `V[0xF]`; `Y` is ignored
(R85, R87, R55). That the flag wins when `X` is `0xF` is the spec's decision D10 (R78; log 5). -/
def Obligations.ShiftsReportLostBit : Prop :=
  ∀ (x y : RegIdx) (s : State),
    (∃ t, exec (.shr x y) s = .next t ∧
      (x ≠ 0xF → (t.reg x).toNat = (s.reg x).toNat / 2) ∧ (t.reg 0xF).toNat = (s.reg x).toNat % 2 ∧
      SameRegsBut [x, 0xF] s t ∧ OnlyChanges [.regs] s t) ∧
    (∃ t, exec (.shl x y) s = .next t ∧
      (x ≠ 0xF → (t.reg x).toNat = 2 * (s.reg x).toNat % 256) ∧ (t.reg 0xF).toNat = (s.reg x).toNat / 128 ∧
      SameRegsBut [x, 0xF] s t ∧ OnlyChanges [.regs] s t)

/-- The flag is exactly 0 or 1 after each of the six instructions that write it (R13, R88), the draw that faults included.
For the first five with `X` = `0xF` it rests on the flag being written last, the spec's decision D10 (R78; log 5). -/
def Obligations.FlagIsZeroOrOne : Prop :=
  ∀ (x y : RegIdx) (n : Nibble) (i : Instr) (s t : State),
    i ∈ [Instr.addReg x y, .sub x y, .shr x y, .subn x y, .shl x y, .drw x y n] → exec i s = .next t →
    t.reg 0xF = 0 ∨ t.reg 0xF = 1

/-- `CXNN`: `V[X]` is the step's free byte masked with `NN`; bits outside the mask are 0; no flag (R89). That the byte is
the next of a sequence of free bytes is the model's form (log 4). -/
def Obligations.RandomByteIsMasked : Prop :=
  ∀ (x : RegIdx) (nn : Byte) (s : State), ∃ t, exec (.rnd x nn) s = .next t ∧
    t.reg x = Config.randomByte s.draws &&& nn ∧ (∀ j, nn.getLsbD j = false → (t.reg x).getLsbD j = false) ∧
    t.draws = s.draws + 1 ∧ SameRegsBut [x] s t ∧ OnlyChanges [.regs, .draws] s t

/-! ## Index register and memory transfers -/

/-- `ANNN`: its words, and `I` is `NNN`, so it is a valid address; nothing else changes (R91). -/
def Obligations.LoadIndex : Prop :=
  ∀ (nnn : Addr) (s : State), decode (encodeNnn 0xA nnn) = .ok (.ldI nnn) ∧
    ∃ t, exec (.ldI nnn) s = .next t ∧ t.i.toNat = nnn.toNat ∧ OnlyChanges [.i] s t

/-- `FX1E`: `I` is the sum modulo 65536, `V[0xF]` is not written, nothing faults (R92; the wrap at 65536 is the spec's D7,
log 11). -/
def Obligations.AddToIndexWraps : Prop :=
  ∀ (x : RegIdx) (s : State), ∃ t, exec (.addI x) s = .next t ∧
    t.i.toNat = (if s.i.toNat + (s.reg x).toNat < 65536 then s.i.toNat + (s.reg x).toNat
      else s.i.toNat + (s.reg x).toNat - 65536) ∧ OnlyChanges [.i] s t

/-- `FX55` with all its addresses in memory: `mem[I + k]` is `V[k]` for `k` = 0 to `X`; every other byte, `I` and the
registers are as before (R94). -/
def Obligations.StoreRegistersWritesMemory : Prop :=
  ∀ (x : RegIdx) (s : State), s.mem.wf → effAddr s x.toNat ≤ 4095 →
    ∃ t, exec (.storeRegs x) s = .next t ∧ (∀ k, k ≤ x.toNat → t.byte (effAddr s k) = s.reg (regOf k)) ∧
      (∀ a, (∀ k, k ≤ x.toNat → a ≠ effAddr s k) → t.byte a = s.byte a) ∧ OnlyChanges [.memory] s t

/-- `FX55` that runs past 4095: the bytes below are stored, then `OutOfBounds` at the first address above 4095 (R94; the fault
on a data access and the partial effect are the spec's D5 and D6, log 9). -/
def Obligations.StoreRegistersPastTheEndFaults : Prop :=
  ∀ (x : RegIdx) (s : State), s.mem.wf → 4095 < effAddr s x.toNat →
    ∃ t, exec (.storeRegs x) s = .next t ∧ Took (.outOfBounds (max (effAddr s 0) 4096)) t ∧
      (∀ k, k ≤ x.toNat → effAddr s k ≤ 4095 → t.byte (effAddr s k) = s.reg (regOf k)) ∧
      (∀ a, (∀ k, k ≤ x.toNat → effAddr s k ≤ 4095 → a ≠ effAddr s k) → t.byte a = s.byte a) ∧
      OnlyChanges [.memory, .runState, .fault] s t

/-- `FX65` with all its addresses in memory: `V[k]` is `mem[I + k]` for `k` = 0 to `X`; the registers above `V[X]`, memory
and `I` are as before (R95). -/
def Obligations.LoadRegistersReadsMemory : Prop :=
  ∀ (x : RegIdx) (s : State), effAddr s x.toNat ≤ 4095 →
    ∃ t, exec (.loadRegs x) s = .next t ∧ (∀ k, k ≤ x.toNat → t.reg (regOf k) = s.byte (effAddr s k)) ∧
      SameRegsBut (regsUpTo x) s t ∧ OnlyChanges [.regs] s t

/-- `FX65` that runs past 4095: the registers below are loaded, the others keep their values, then `OutOfBounds` at the first
address above 4095 (R95; D5 and D6, log 9). -/
def Obligations.LoadRegistersPastTheEndFaults : Prop :=
  ∀ (x : RegIdx) (s : State), 4095 < effAddr s x.toNat →
    ∃ t, exec (.loadRegs x) s = .next t ∧ Took (.outOfBounds (max (effAddr s 0) 4096)) t ∧
      (∀ k, k ≤ x.toNat → effAddr s k ≤ 4095 → t.reg (regOf k) = s.byte (effAddr s k)) ∧
      (∀ k, k ≤ 15 → (x.toNat < k ∨ 4095 < effAddr s k) → t.reg (regOf k) = s.reg (regOf k)) ∧
      OnlyChanges [.regs, .runState, .fault] s t

/-- `FX55` and then `FX65` with the same `X` and `I`: every register is as before (R95). -/
def Obligations.StoreThenLoadReloads : Prop :=
  ∀ (x : RegIdx) (s : State), s.mem.wf → effAddr s x.toNat ≤ 4095 →
    ∃ t u, exec (.storeRegs x) s = .next t ∧ exec (.loadRegs x) (advance t) = .next u ∧ SameRegsBut [] s u

/-- A store into the instruction stream is seen by the next fetch: at an address whose two bytes `FX55` has stored, the
fetched word is made of the two registers (R32, R41). -/
def Obligations.StoredWordIsFetched : Prop :=
  ∀ (x : RegIdx) (s : State) (k : Nat) (p : Word), s.mem.wf → effAddr s x.toNat ≤ 4095 → k < x.toNat →
    p.toNat = effAddr s k →
    ∃ t, exec (.storeRegs x) s = .next t ∧
      fetch (t.setPc p) = some (wordOfBytes (s.reg (regOf k)) (s.reg (regOf (k + 1))))

/-! ## Display -/

/-- `00E0`: its one word, and every cell is 0 and nothing else changes, `V[0xF]` included; twice is the same as once
(R97). -/
def Obligations.ClearDisplay : Prop :=
  (∀ w : Word, decode w = .ok .cls ↔ w = 0x00E0) ∧
  ∀ s : State, ∃ t u, exec .cls s = .next t ∧ (∀ k, t.pixel k = false) ∧ OnlyChanges [.display] s t ∧
    exec .cls t = .next u ∧ u.display = t.display

/-- `DXYN` when no access faults is the closed form of R99: the `R` rows and `C` columns on the Display are XORed with the
sprite's bits, the flag is the collision flag, every other cell and register is as before. -/
def Obligations.DrawMeetsClosedForm : Prop :=
  ∀ (x y : RegIdx) (n : Nibble) (s : State),
    (rowsOnDisplay s y n = 0 ∨ effAddr s (rowsOnDisplay s y n - 1) ≤ 4095) →
    ∃ t, exec (.drw x y n) s = .next t ∧ Drawn s t x y (rowsOnDisplay s y n) ∧
      SameRegsBut [0xF] s t ∧ OnlyChanges [.regs, .display] s t

/-- `DXYN` when a row on the Display lies above 4095: the rows below are drawn and the flag holds what they gave, then
`OutOfBounds` at the first address above 4095 (R98; D5 and D6, log 9). -/
def Obligations.DrawPastTheEndFaults : Prop :=
  ∀ (x y : RegIdx) (n : Nibble) (s : State),
    0 < rowsOnDisplay s y n → 4095 < effAddr s (rowsOnDisplay s y n - 1) →
    ∃ t, exec (.drw x y n) s = .next t ∧ Drawn s t x y (4096 - effAddr s 0) ∧
      Took (.outOfBounds (max (effAddr s 0) 4096)) t ∧ SameRegsBut [0xF] s t ∧
      OnlyChanges [.regs, .display, .runState, .fault] s t

/-- Drawing the same sprite twice restores the Display exactly; the second draw's flag is 1 if and only if the first draw
turned a cell from 0 to 1 (R100 (a)). -/
def Obligations.DrawTwiceRestoresDisplay : Prop :=
  ∀ (x y : RegIdx) (n : Nibble) (s t : State),
    (rowsOnDisplay s y n = 0 ∨ effAddr s (rowsOnDisplay s y n - 1) ≤ 4095) →
    exec (.drw x y n) s = .next t → t.reg x = s.reg x → t.reg y = s.reg y →
    ∃ u, exec (.drw x y n) (advance t) = .next u ∧ u.display = s.display ∧
      (u.reg 0xF = 1 ↔ ∃ r c, r < rowsOnDisplay s y n ∧ c < columnsOnDisplay s x ∧
        s.pixel (spriteCell s x y r c) = false ∧ spritePixel s r c = true) ∧
      (u.reg 0xF = 0 ∨ u.reg 0xF = 1)

/-- A draw whose area is all 0 never collides; a draw of sprite bytes without a 1 bit there changes no cell and gives
flag 0; a row count of 0 draws nothing and gives flag 0 (R98 (3), R100 (b), (c)). -/
def Obligations.DrawWithoutCollision : Prop :=
  ∀ (x y : RegIdx) (n : Nibble) (s t : State), exec (.drw x y n) s = .next t →
    ((∀ r c, r < rowsOnDisplay s y n → c < columnsOnDisplay s x → s.pixel (spriteCell s x y r c) = false) →
      t.reg 0xF = 0) ∧
    ((∀ r c, r < rowsOnDisplay s y n → c < columnsOnDisplay s x → spritePixel s r c = false) →
      t.reg 0xF = 0 ∧ t.display = s.display) ∧
    (n = 0 → t.reg 0xF = 0 ∧ OnlyChanges [.regs] s t)

/-! ## The host's commands -/

/-- `tick`: after `k` ticks a counter that held `d` holds `max (d - k) 0`; nothing else changes (R116). That this holds in
every run state, `Paused` and `Quit` included, is the spec's decision D15 (R117; log 11). -/
def Obligations.TicksCountDown : Prop :=
  ∀ (k : Nat) (s : State), (tick^[k] s).delay.toNat = s.delay.toNat - k ∧
    (tick^[k] s).sound.toNat = s.sound.toNat - k ∧ OnlyChanges [.delay, .sound] s (tick^[k] s)

/-- `pause`, `resume` and `set_keys` do what R112's table says, in every run state, and change nothing else (R113, R114, R118;
the spec's D14, D15 and D19, log 11). -/
def Obligations.PauseResumeAndKeys : Prop :=
  ∀ s : State,
    (s.runState = .running → (pause s).runState = .paused) ∧ (s.runState ≠ .running → pause s = s) ∧
    (s.runState = .paused → (resume s).runState = .running) ∧ (s.runState ≠ .paused → resume s = s) ∧
    OnlyChanges [.runState] s (pause s) ∧ OnlyChanges [.runState] s (resume s) ∧
    (∀ k, (setKeys k s).keys = k ∧ OnlyChanges [.keys] s (setKeys k s))

/-- `load` with a font and a program that fit: the two copies, `pc` at 0x200, every other byte and every other piece of state
as before, in every run state (R125, R129; the spec's D16, log 7). A font over 512 bytes violates the precondition of R124
(a): the `load` is refused and changes nothing, whatever the program; that is the spec's D16 (U5), that it holds also when
the program is too long is the model's choice (log 7). -/
def Obligations.LoadCopiesFontAndProgram : Prop :=
  ∀ (font program : List Byte) (s : State),
    (s.mem.wf → fontFits font = true → programFits program = true →
      ∃ t, load font program s = .loaded t ∧ t.pc = 0x200 ∧
        (∀ k (h : k < font.length), t.byte k = font[k]) ∧
        (∀ k (h : k < program.length), t.byte (0x200 + k) = program[k]) ∧
        (∀ a, font.length ≤ a → (a < 0x200 ∨ 0x200 + program.length ≤ a) → t.byte a = s.byte a) ∧
        OnlyChanges [.pc, .memory] s t) ∧
    (512 < font.length → runCommand (.load font program) s = .next (s, .fontTooLong))

/-- `RomTooLarge`: with a font that fits, a program over 3584 bytes gives `RomTooLarge` with its length as the report, and the
machine remains as it was, font, `pc`, run state and latch included; a program of 3584 bytes or fewer loads, the last of
3584 to 4095 (R126). -/
def Obligations.RomTooLarge : Prop :=
  ∀ (font program : List Byte) (s : State), font.length ≤ 512 →
    (3584 < program.length → runCommand (.load font program) s = .next (s, .romTooLarge program.length)) ∧
    (program.length ≤ 3584 → ∃ t, runCommand (.load font program) s = .next (t, .done) ∧
      (s.mem.wf → ∀ h : program.length = 3584, t.byte 4095 = program[3583]))

/-- The loader and the fetch agree: a program given as instruction words, each split into `v >> 8` and `v & 0xFF` in that
order, is fetched word by word as it was given (R44). -/
def Obligations.LoadedProgramIsFetched : Prop :=
  (∀ v : Word, (bytesOfWord v).map BitVec.toNat = [v.toNat >>> 8, v.toNat &&& 0xFF]) ∧
  ∀ (font : List Byte) (words : List Word) (s t : State), s.mem.wf → load font (words.flatMap bytesOfWord) s = .loaded t →
    ∀ k (h : k < words.length) (p : Word), p.toNat = 0x200 + 2 * k → fetch (t.setPc p) = some words[k]

/-- `reset` from any state, `Quit` included: the reset state (R112, R123; the values are the spec's D2 and D12, log 1), but
for the model's count of drawn bytes, which goes on (log 4). -/
def Obligations.ResetFromAnyState : Prop :=
  ∀ s : State, ∃ t, runCommand .reset s = .next (t, .done) ∧ OnlyChanges [.draws] State.reset t ∧ t.draws = s.draws

/-- The outputs (R119): the Display, the two counters and `run_state` as the state holds them, `beep` as `sound > 0`, and the
fault: its code is 0 exactly when the machine is not in `Quit`, in a state that meets the invariant; codes 1 and 4 show
their payload, codes 0, 2 and 3 have none (R102). The codes and payloads are the spec's D12, the list of outputs is its D25
(log 11). -/
def Obligations.OutputsShowFaultAndBeep : Prop :=
  ∀ s : State, s.Inv →
    (∀ k, Screen.cell (outputs s).display k = s.pixel k) ∧ (outputs s).delay = s.delay ∧ (outputs s).sound = s.sound ∧
    (outputs s).runState = s.runState ∧ ((outputs s).beep = true ↔ 0 < s.sound.toNat) ∧
    ((outputs s).faultCode = 0 ↔ s.runState ≠ .quit) ∧
    (s.fault = none → (outputs s).faultCode = 0 ∧ (outputs s).faultPayload = none) ∧
    (∀ a, s.fault = some (.outOfBounds a) → (outputs s).faultCode = 1 ∧ (outputs s).faultPayload = some a) ∧
    (s.fault = some .stackOverflow → (outputs s).faultCode = 2 ∧ (outputs s).faultPayload = none) ∧
    (s.fault = some .stackUnderflow → (outputs s).faultCode = 3 ∧ (outputs s).faultPayload = none) ∧
    (∀ w, s.fault = some (.unimplementedOpcode w) →
      (outputs s).faultCode = 4 ∧ (outputs s).faultPayload = some w.toNat)

/-- A finished run, a jump to itself with no fault, is a fixed point of the step (R132, the spec's D27). -/
def Obligations.FinishedRunIsFixedPoint : Prop := ∀ s : State, Finished s → step s = .next s
end

