-- ==== Sys2Proof/Laws/Encoding.lean ====
section
/-! SUPPORT. The fields of an encoded word, and what decoding answers (spec/30_encoding.md R46, R49, R53). -/

namespace Sys2Proof

/-- The types of the operands have the widths of the fields: every instruction is well-formed (R48). -/
theorem wellFormed_all (i : Instr) : i.wellFormed = true := by
  have h4 (x : BitVec 4) : x.toNat < 16 := x.isLt
  have h8 (x : BitVec 8) : x.toNat < 256 := x.isLt
  have h12 (x : BitVec 12) : x.toNat < 4096 := x.isLt
  cases i <;> simp [Instr.wellFormed, Instr.operands, Operand.inRange, h4, h8, h12]

/-! The value of a field and of an encoded word as numbers (R46, R47). -/

/-- Two bit vectors put side by side, as a number. -/
theorem toNat_append_add {n m : Nat} (a : BitVec n) (b : BitVec m) : (a ++ b).toNat = a.toNat * 2 ^ m + b.toNat := by
  rw [BitVec.toNat_append, ← Nat.shiftLeft_add_eq_or_of_lt b.isLt, Nat.shiftLeft_eq]

theorem opField_toNat (w : Word) : (opField w).toNat = w.toNat / 4096 := by
  have := w.isLt
  simp [opField, BitVec.extractLsb'_toNat, Nat.shiftRight_eq_div_pow]
  omega

theorem xField_toNat (w : Word) : (xField w).toNat = w.toNat / 256 % 16 := by
  simp [xField, BitVec.extractLsb'_toNat, Nat.shiftRight_eq_div_pow]

theorem yField_toNat (w : Word) : (yField w).toNat = w.toNat / 16 % 16 := by
  simp [yField, BitVec.extractLsb'_toNat, Nat.shiftRight_eq_div_pow]

theorem nField_toNat (w : Word) : (nField w).toNat = w.toNat % 16 := by
  simp [nField, BitVec.extractLsb'_toNat]

theorem nnField_toNat (w : Word) : (nnField w).toNat = w.toNat % 256 := by
  simp [nnField, BitVec.extractLsb'_toNat]

theorem nnnField_toNat (w : Word) : (nnnField w).toNat = w.toNat % 4096 := by
  simp [nnnField, BitVec.extractLsb'_toNat]

theorem encodeNnn_toNat (op : Nibble) (nnn : Addr) : (encodeNnn op nnn).toNat = op.toNat * 4096 + nnn.toNat :=
  toNat_append_add op nnn

theorem encodeXnn_toNat (op : Nibble) (x : RegIdx) (nn : Byte) :
    (encodeXnn op x nn).toNat = op.toNat * 4096 + x.toNat * 256 + nn.toNat := by
  have h := toNat_append_add (op ++ x) nn
  rw [toNat_append_add op x] at h
  exact h.trans (by omega)

theorem encodeXyn_toNat (op : Nibble) (x y : RegIdx) (n : Nibble) :
    (encodeXyn op x y n).toNat = op.toNat * 4096 + x.toNat * 256 + y.toNat * 16 + n.toNat := by
  have h := toNat_append_add (op ++ x) (y ++ n)
  rw [toNat_append_add op x, toNat_append_add y n] at h
  exact h.trans (by omega)

/-! The fields of the three formats (R46, R47). -/

@[simp] theorem opField_encodeNnn (op : Nibble) (nnn : Addr) : opField (encodeNnn op nnn) = op := by
  apply BitVec.eq_of_toNat_eq
  rw [opField_toNat, encodeNnn_toNat]
  omega

@[simp] theorem nnnField_encodeNnn (op : Nibble) (nnn : Addr) : nnnField (encodeNnn op nnn) = nnn := by
  apply BitVec.eq_of_toNat_eq
  rw [nnnField_toNat, encodeNnn_toNat]
  omega

@[simp] theorem opField_encodeXnn (op : Nibble) (x : RegIdx) (nn : Byte) : opField (encodeXnn op x nn) = op := by
  apply BitVec.eq_of_toNat_eq
  rw [opField_toNat, encodeXnn_toNat]
  omega

@[simp] theorem xField_encodeXnn (op : Nibble) (x : RegIdx) (nn : Byte) : xField (encodeXnn op x nn) = x := by
  apply BitVec.eq_of_toNat_eq
  rw [xField_toNat, encodeXnn_toNat]
  omega

@[simp] theorem nnField_encodeXnn (op : Nibble) (x : RegIdx) (nn : Byte) : nnField (encodeXnn op x nn) = nn := by
  apply BitVec.eq_of_toNat_eq
  rw [nnField_toNat, encodeXnn_toNat]
  omega

@[simp] theorem opField_encodeXyn (op : Nibble) (x y : RegIdx) (n : Nibble) : opField (encodeXyn op x y n) = op := by
  apply BitVec.eq_of_toNat_eq
  rw [opField_toNat, encodeXyn_toNat]
  omega

@[simp] theorem xField_encodeXyn (op : Nibble) (x y : RegIdx) (n : Nibble) : xField (encodeXyn op x y n) = x := by
  apply BitVec.eq_of_toNat_eq
  rw [xField_toNat, encodeXyn_toNat]
  omega

@[simp] theorem yField_encodeXyn (op : Nibble) (x y : RegIdx) (n : Nibble) : yField (encodeXyn op x y n) = y := by
  apply BitVec.eq_of_toNat_eq
  rw [yField_toNat, encodeXyn_toNat]
  omega

@[simp] theorem nField_encodeXyn (op : Nibble) (x y : RegIdx) (n : Nibble) : nField (encodeXyn op x y n) = n := by
  apply BitVec.eq_of_toNat_eq
  rw [nField_toNat, encodeXyn_toNat]
  omega

/-- A word is made of its fields `op`, `X`, `Y`, `N` (R46). -/
theorem encodeXyn_fields (w : Word) : encodeXyn (opField w) (xField w) (yField w) (nField w) = w := by
  apply BitVec.eq_of_toNat_eq
  rw [encodeXyn_toNat, opField_toNat, xField_toNat, yField_toNat, nField_toNat]
  omega

/-- A word is made of its fields `op`, `X`, `NN` (R46). -/
theorem encodeXnn_fields (w : Word) : encodeXnn (opField w) (xField w) (nnField w) = w := by
  apply BitVec.eq_of_toNat_eq
  rw [encodeXnn_toNat, opField_toNat, xField_toNat, nnField_toNat]
  omega

/-- A word is made of its fields `op`, `NNN` (R46). -/
theorem encodeNnn_fields (w : Word) : encodeNnn (opField w) (nnnField w) = w := by
  apply BitVec.eq_of_toNat_eq
  rw [encodeNnn_toNat, opField_toNat, nnnField_toNat]
  omega

@[simp] theorem yField_encodeXnn (op : Nibble) (x : RegIdx) (nn : Byte) :
    yField (encodeXnn op x nn) = nn.extractLsb' 4 4 := by
  apply BitVec.eq_of_toNat_eq
  rw [yField_toNat, encodeXnn_toNat, BitVec.extractLsb'_toNat, Nat.shiftRight_eq_div_pow]
  omega

@[simp] theorem nField_encodeXnn (op : Nibble) (x : RegIdx) (nn : Byte) :
    nField (encodeXnn op x nn) = nn.extractLsb' 0 4 := by
  apply BitVec.eq_of_toNat_eq
  rw [nField_toNat, encodeXnn_toNat, BitVec.extractLsb'_toNat, Nat.shiftRight_eq_div_pow]
  omega

/-- Two words with the same four nibbles are the same (R46). -/
theorem word_ext_fields {a b : Word} (h1 : opField a = opField b) (h2 : xField a = xField b) (h3 : yField a = yField b)
    (h4 : nField a = nField b) : a = b := by
  rw [← encodeXyn_fields a, ← encodeXyn_fields b, h1, h2, h3, h4]

/-- A word selects a row exactly when each of its nibbles, masked, is the row's (R50). -/
theorem selects_iff_fields (r : OpcodeRow) (w : Word) :
    r.selects w = true ↔
      opField w &&& opField r.mask = opField r.value ∧ xField w &&& xField r.mask = xField r.value ∧
        yField w &&& yField r.mask = yField r.value ∧ nField w &&& nField r.mask = nField r.value := by
  simp only [OpcodeRow.selects, beq_iff_eq]
  constructor
  · intro h
    rw [← h]
    simp [opField, xField, yField, nField, BitVec.extractLsb'_and]
  · rintro ⟨h1, h2, h3, h4⟩
    apply word_ext_fields
    · rw [← h1]
      simp [opField, BitVec.extractLsb'_and]
    · rw [← h2]
      simp [xField, BitVec.extractLsb'_and]
    · rw [← h3]
      simp [yField, BitVec.extractLsb'_and]
    · rw [← h4]
      simp [nField, BitVec.extractLsb'_and]

/-! The byte order (R31, R44). -/

/-- A fetched word is the byte at the lower address times 256 plus the byte at the higher one (R31). -/
theorem wordOfBytes_toNat (hi lo : Byte) : (wordOfBytes hi lo).toNat = hi.toNat * 256 + lo.toNat :=
  toNat_append_add hi lo

theorem hiByte_toNat (w : Word) : (hiByte w).toNat = w.toNat / 256 := by
  have := w.isLt
  simp [hiByte, BitVec.extractLsb'_toNat, Nat.shiftRight_eq_div_pow]
  omega

theorem loByte_toNat (w : Word) : (loByte w).toNat = w.toNat % 256 := by
  simp [loByte, BitVec.extractLsb'_toNat]

/-- The bytes of a word put together again give the word: `load` and the fetch agree on the byte order (R44). -/
@[simp] theorem wordOfBytes_bytes (w : Word) : wordOfBytes (hiByte w) (loByte w) = w := by
  apply BitVec.eq_of_toNat_eq
  rw [wordOfBytes_toNat, hiByte_toNat, loByte_toNat]
  omega

/-! What the decoder answers. -/

/-- The second level in group 8 answers an instruction or refuses the word by name (R54). -/
theorem decodeGroup8_error (w : Word) (e : DecodeError) (h : decodeGroup8 w = .error e) : e = .unimplementedOpcode w := by
  unfold decodeGroup8 at h
  split at h <;> simp_all

/-- The second level in group F answers an instruction or refuses the word by name (R54). -/
theorem decodeGroupF_error (w : Word) (e : DecodeError) (h : decodeGroupF w = .error e) : e = .unimplementedOpcode w := by
  unfold decodeGroupF at h
  split at h <;> simp_all

/-- A refused word is refused with its own raw value (R53). -/
theorem decode_error (w : Word) (e : DecodeError) (h : decode w = .error e) : e = .unimplementedOpcode w := by
  unfold decode at h
  split at h
  all_goals first
    | exact decodeGroup8_error w e h
    | exact decodeGroupF_error w e h
    | (split at h <;> first | (split at h <;> simp_all) | simp_all)
    | simp_all

end Sys2Proof
end

