-- ==== Sys2Proof/Laws/Memory.lean ====
section
/-! SUPPORT. Reading after writing, and that every memory operation keeps the canonical form. -/

namespace Sys2Proof.Machine

/-- An address below every listed one reads as an unlisted one. -/
theorem Memory.read_below (m : Memory) (q : Nat) (h : ∀ c ∈ m, q < c.1) : Memory.read m q = Memory.unlisted := by
  induction m with
  | nil => rfl
  | cons d m ih =>
    have := h d (by simp)
    simp only [Memory.read]
    rw [if_neg (by omega)]
    exact ih fun e he => h e (by simp [he])

/-- A write is read back at its address and leaves every other address alone, in a memory of rising addresses. -/
theorem Memory.read_write_of_rising (m : Memory) (a : Nat) (b : Byte) (hm : m.Pairwise (fun c d => c.1 < d.1)) (j : Nat) :
    Memory.read (Memory.write m a b) j = if j = a then b else Memory.read m j := by
  induction m with
  | nil =>
    simp only [Memory.write]
    split <;> by_cases hj : j = a <;> simp_all [Memory.read]
  | cons c m ih =>
    obtain ⟨a', b'⟩ := c
    have hlt : ∀ d ∈ m, a' < d.1 := fun d hd => (List.pairwise_cons.1 hm).1 d hd
    have ih := ih (List.pairwise_cons.1 hm).2
    have hlow : ∀ q, q ≤ a' → Memory.read m q = Memory.unlisted := fun q hq =>
      Memory.read_below m q fun c hc => by have := hlt c hc; omega
    simp only [Memory.write]
    split
    · split
      · by_cases hj : j = a
        · subst hj
          simp [Memory.read, hlow j (by omega), show j ≠ a' by omega, *]
        · simp [hj]
      · by_cases hj : j = a <;> simp [Memory.read, hj]
    · split
      · subst a'
        split
        · by_cases hj : j = a
          · subst hj
            simp [hlow j (by omega), *]
          · simp [Memory.read, hj]
        · by_cases hj : j = a <;> simp [Memory.read, hj]
      · simp only [Memory.read, ih]
        by_cases hj : j = a <;> simp [*]

/-- The cells of a memory after a write: the old ones and the one written. -/
theorem Memory.mem_write (m : Memory) (a : Nat) (b : Byte) (c : Host.Cell) (hc : c ∈ Memory.write m a b) :
    c ∈ m ∨ (c = (a, b) ∧ b ≠ Memory.unlisted) := by
  induction m with
  | nil =>
    simp only [Memory.write] at hc
    split at hc <;> simp_all
  | cons d m ih =>
    obtain ⟨a', b'⟩ := d
    simp only [Memory.write] at hc
    split at hc
    · split at hc
      · exact .inl hc
      · rcases List.mem_cons.1 hc with rfl | hc
        · exact .inr ⟨rfl, by assumption⟩
        · exact .inl hc
    · split at hc
      · split at hc
        · exact .inl (by simp [hc])
        · rcases List.mem_cons.1 hc with rfl | hc
          · exact .inr ⟨rfl, by assumption⟩
          · exact .inl (by simp [hc])
      · rcases List.mem_cons.1 hc with rfl | hc
        · exact .inl (by simp)
        · exact (ih hc).imp (by simp +contextual) id

/-- A write keeps the rising order of the addresses. -/
theorem Memory.write_pairwise (m : Memory) (a : Nat) (b : Byte) (hm : m.Pairwise (fun c d => c.1 < d.1)) :
    (Memory.write m a b).Pairwise (fun c d => c.1 < d.1) := by
  induction m with
  | nil =>
    simp only [Memory.write]
    split <;> simp
  | cons d m ih =>
    obtain ⟨a', b'⟩ := d
    obtain ⟨h1, h2⟩ := List.pairwise_cons.1 hm
    simp only [Memory.write]
    split
    · split
      · exact hm
      · refine List.pairwise_cons.2 ⟨fun c hc => ?_, hm⟩
        rcases List.mem_cons.1 hc with rfl | hc
        · assumption
        · exact Nat.lt_trans (by assumption) (h1 c hc)
    · split
      · subst a'
        split
        · exact h2
        · exact List.pairwise_cons.2 ⟨h1, h2⟩
      · refine List.pairwise_cons.2 ⟨fun c hc => ?_, ih h2⟩
        rcases Memory.mem_write m a b c hc with hc | ⟨rfl, -⟩
        · exact h1 c hc
        · show a' < a
          omega

/-- A write inside the address space keeps the canonical form. -/
theorem Memory.write_wf (m : Memory) (a : Nat) (b : Byte) (hm : m.wf) (ha : a < Config.memSize) :
    Memory.wf (Memory.write m a b) := by
  refine ⟨Memory.write_pairwise m a b hm.1, fun c hc => ?_⟩
  rcases Memory.mem_write m a b c hc with hc | ⟨rfl, hb⟩
  · exact hm.2 c hc
  · exact ⟨ha, hb⟩

/-- A write is read back at its address and leaves every other address alone. -/
theorem Memory.read_write (m : Memory) (a : Nat) (b : Byte) (hm : m.wf) (j : Nat) :
    Memory.read (Memory.write m a b) j = if j = a then b else Memory.read m j :=
  Memory.read_write_of_rising m a b hm.1 j

/-- A run of byte writes inside the address space keeps the canonical form. -/
theorem Memory.writeBytes_wf (bs : List Byte) (m : Memory) (a : Nat) (hm : m.wf) (ha : a + bs.length ≤ Config.memSize) :
    Memory.wf (Memory.writeBytes m a bs) := by
  induction bs generalizing m a with
  | nil => exact hm
  | cons b bs ih =>
    simp only [List.length_cons] at ha
    exact ih _ _ (Memory.write_wf m a b hm (by omega)) (by omega)

/-- A run of byte writes is read back at its addresses and leaves every other address alone. -/
theorem Memory.read_writeBytes (bs : List Byte) (m : Memory) (a : Nat) (hm : m.Pairwise (fun c d => c.1 < d.1)) (j : Nat) :
    Memory.read (Memory.writeBytes m a bs) j =
      if h : a ≤ j ∧ j - a < bs.length then bs[j - a]'h.2 else Memory.read m j := by
  induction bs generalizing m a with
  | nil => simp [Memory.writeBytes]
  | cons b bs ih =>
    simp only [Memory.writeBytes]
    rw [ih _ _ (Memory.write_pairwise m a b hm), Memory.read_write_of_rising m a b hm]
    by_cases h1 : a + 1 ≤ j ∧ j - (a + 1) < bs.length
    · rw [dif_pos h1, dif_pos ⟨by omega, by simp only [List.length_cons]; omega⟩]
      have : j - a = (j - (a + 1)) + 1 := by omega
      simp [this]
    · rw [dif_neg h1]
      by_cases h2 : j = a
      · subst h2
        simp
      · rw [if_neg h2, dif_neg]
        simp only [List.length_cons]
        omega

end Sys2Proof.Machine
end

