-- ==== Sys2Proof/Laws/Screen.lean ====
section
/-! SUPPORT. The cells of the Display after an update (spec/44_display.md R96). -/

namespace Sys2Proof.Machine

/-- A row's bits after one is set. -/
theorem Screen.getLsbD_setBit (r : BitVec 64) (x j : Nat) (b : Bool) (hx : x < 64) :
    (Screen.setBit r x b).getLsbD j = if j = x then b else r.getLsbD j := by
  unfold Screen.setBit
  cases b
  · by_cases hj : j = x
    · subst hj
      simp [hx]
    · by_cases h64 : j < 64
      · have : ¬ j - x = 0 ∨ j < x := by omega
        simp only [hj, if_false, Bool.false_eq_true, BitVec.getLsbD_and, BitVec.getLsbD_not, BitVec.getLsbD_shiftLeft,
          BitVec.getLsbD_one]
        rcases this with h | h <;> simp [h, h64]
      · simp [hj, BitVec.getLsbD_of_ge _ j (by omega : 64 ≤ j)]
  · by_cases hj : j = x
    · subst hj
      simp [hx]
    · have : ¬ j - x = 0 ∨ j < x := by omega
      rcases this with h | h <;> simp [hj, h]

/-- A cell written is read back, every other cell is as before (R8). -/
theorem Screen.cell_setCell (d : Screen) (k j : Nat) (b : Bool) (hk : k < 2048) :
    Screen.cell (Screen.setCell d k b) j = if j = k then b else Screen.cell d j := by
  unfold Screen.cell Screen.setCell
  by_cases hj : j < 2048
  · simp only [hk, hj, dif_pos, Vector.getElem_set]
    by_cases hr : k / 64 = j / 64
    · rw [if_pos hr, Screen.getLsbD_setBit _ _ _ _ (Nat.mod_lt _ (by omega))]
      by_cases hjk : j = k
      · subst hjk
        simp
      · rw [if_neg hjk, if_neg (by omega)]
        simp [hr]
    · rw [if_neg hr, if_neg (by omega)]
  · simp only [hj, dif_neg, not_false_eq_true]
    rw [if_neg (by omega)]

/-- Outside the Display no cell is set. -/
theorem Screen.cell_of_ge (d : Screen) (k : Nat) (hk : 2048 ≤ k) : Screen.cell d k = false := by
  simp [Screen.cell, Nat.not_lt.2 hk]

/-- Every cell of the blank Display is 0 (R97). -/
@[simp] theorem Screen.cell_blank (k : Nat) : Screen.cell Screen.blank k = false := by
  simp [Screen.cell, Screen.blank]

/-- The cell in column `x` of row `y` is bit `x` of row `y` (R96; log 3). -/
theorem Screen.cell_index (d : Screen) (x y : Nat) (hx : x < 64) (hy : y < 32) :
    Screen.cell d (y * 64 + x) = (d[y]).getLsbD x := by
  have h1 : (y * 64 + x) / 64 = y := by omega
  have h2 : (y * 64 + x) % 64 = x := by omega
  simp only [Screen.cell]
  rw [dif_pos (by omega)]
  simp [h1, h2]

/-- Two Displays with the same cells are the same. -/
theorem Screen.ext_cells (d e : Screen) (h : ∀ k, k < 2048 → Screen.cell d k = Screen.cell e k) : d = e := by
  apply Vector.ext
  intro y hy
  apply BitVec.eq_of_getLsbD_eq
  intro x hx
  have := h (y * 64 + x) (by omega)
  rwa [Screen.cell_index d x y hx hy, Screen.cell_index e x y hx hy] at this

end Sys2Proof.Machine
end

