-- ==== Sys2Proof/Laws/State.lean ====
section
/-! SUPPORT. One lemma per field per update of the state, each true by unfolding, so that no later proof unfolds a record
update. `reg`, `byte` and `pixel` count as fields. -/

namespace Sys2Proof.Machine

@[simp] theorem State.setReg_v (s : State) (x : RegIdx) (b : Byte) : (s.setReg x b).v = s.v.set x.toNat b x.isLt := rfl
@[simp] theorem State.setReg_i (s : State) (x : RegIdx) (b : Byte) : (s.setReg x b).i = s.i := rfl
@[simp] theorem State.setReg_pc (s : State) (x : RegIdx) (b : Byte) : (s.setReg x b).pc = s.pc := rfl
@[simp] theorem State.setReg_stack (s : State) (x : RegIdx) (b : Byte) : (s.setReg x b).stack = s.stack := rfl
@[simp] theorem State.setReg_sp (s : State) (x : RegIdx) (b : Byte) : (s.setReg x b).sp = s.sp := rfl
@[simp] theorem State.setReg_mem (s : State) (x : RegIdx) (b : Byte) : (s.setReg x b).mem = s.mem := rfl
@[simp] theorem State.setReg_display (s : State) (x : RegIdx) (b : Byte) : (s.setReg x b).display = s.display := rfl
@[simp] theorem State.setReg_delay (s : State) (x : RegIdx) (b : Byte) : (s.setReg x b).delay = s.delay := rfl
@[simp] theorem State.setReg_sound (s : State) (x : RegIdx) (b : Byte) : (s.setReg x b).sound = s.sound := rfl
@[simp] theorem State.setReg_keys (s : State) (x : RegIdx) (b : Byte) : (s.setReg x b).keys = s.keys := rfl
@[simp] theorem State.setReg_runState (s : State) (x : RegIdx) (b : Byte) : (s.setReg x b).runState = s.runState := rfl
@[simp] theorem State.setReg_fault (s : State) (x : RegIdx) (b : Byte) : (s.setReg x b).fault = s.fault := rfl
@[simp] theorem State.setReg_draws (s : State) (x : RegIdx) (b : Byte) : (s.setReg x b).draws = s.draws := rfl
@[simp] theorem State.setReg_byte (s : State) (x : RegIdx) (b : Byte) (j : Nat) : (s.setReg x b).byte j = s.byte j := rfl
@[simp] theorem State.setReg_pixel (s : State) (x : RegIdx) (b : Byte) (j : Nat) : (s.setReg x b).pixel j = s.pixel j := rfl

@[simp] theorem State.setFlag_v (s : State) (f : Byte) : (s.setFlag f).v = s.v.set Config.flagReg.toNat f Config.flagReg.isLt := rfl
@[simp] theorem State.setFlag_i (s : State) (f : Byte) : (s.setFlag f).i = s.i := rfl
@[simp] theorem State.setFlag_pc (s : State) (f : Byte) : (s.setFlag f).pc = s.pc := rfl
@[simp] theorem State.setFlag_stack (s : State) (f : Byte) : (s.setFlag f).stack = s.stack := rfl
@[simp] theorem State.setFlag_sp (s : State) (f : Byte) : (s.setFlag f).sp = s.sp := rfl
@[simp] theorem State.setFlag_mem (s : State) (f : Byte) : (s.setFlag f).mem = s.mem := rfl
@[simp] theorem State.setFlag_display (s : State) (f : Byte) : (s.setFlag f).display = s.display := rfl
@[simp] theorem State.setFlag_delay (s : State) (f : Byte) : (s.setFlag f).delay = s.delay := rfl
@[simp] theorem State.setFlag_sound (s : State) (f : Byte) : (s.setFlag f).sound = s.sound := rfl
@[simp] theorem State.setFlag_keys (s : State) (f : Byte) : (s.setFlag f).keys = s.keys := rfl
@[simp] theorem State.setFlag_runState (s : State) (f : Byte) : (s.setFlag f).runState = s.runState := rfl
@[simp] theorem State.setFlag_fault (s : State) (f : Byte) : (s.setFlag f).fault = s.fault := rfl
@[simp] theorem State.setFlag_draws (s : State) (f : Byte) : (s.setFlag f).draws = s.draws := rfl
@[simp] theorem State.setFlag_byte (s : State) (f : Byte) (j : Nat) : (s.setFlag f).byte j = s.byte j := rfl
@[simp] theorem State.setFlag_pixel (s : State) (f : Byte) (j : Nat) : (s.setFlag f).pixel j = s.pixel j := rfl

@[simp] theorem State.setI_v (s : State) (w : Word) : (s.setI w).v = s.v := rfl
@[simp] theorem State.setI_i (s : State) (w : Word) : (s.setI w).i = w := rfl
@[simp] theorem State.setI_pc (s : State) (w : Word) : (s.setI w).pc = s.pc := rfl
@[simp] theorem State.setI_stack (s : State) (w : Word) : (s.setI w).stack = s.stack := rfl
@[simp] theorem State.setI_sp (s : State) (w : Word) : (s.setI w).sp = s.sp := rfl
@[simp] theorem State.setI_mem (s : State) (w : Word) : (s.setI w).mem = s.mem := rfl
@[simp] theorem State.setI_display (s : State) (w : Word) : (s.setI w).display = s.display := rfl
@[simp] theorem State.setI_delay (s : State) (w : Word) : (s.setI w).delay = s.delay := rfl
@[simp] theorem State.setI_sound (s : State) (w : Word) : (s.setI w).sound = s.sound := rfl
@[simp] theorem State.setI_keys (s : State) (w : Word) : (s.setI w).keys = s.keys := rfl
@[simp] theorem State.setI_runState (s : State) (w : Word) : (s.setI w).runState = s.runState := rfl
@[simp] theorem State.setI_fault (s : State) (w : Word) : (s.setI w).fault = s.fault := rfl
@[simp] theorem State.setI_draws (s : State) (w : Word) : (s.setI w).draws = s.draws := rfl
@[simp] theorem State.setI_reg (s : State) (w : Word) (j : RegIdx) : (s.setI w).reg j = s.reg j := rfl
@[simp] theorem State.setI_byte (s : State) (w : Word) (j : Nat) : (s.setI w).byte j = s.byte j := rfl
@[simp] theorem State.setI_pixel (s : State) (w : Word) (j : Nat) : (s.setI w).pixel j = s.pixel j := rfl

@[simp] theorem State.setPc_v (s : State) (w : Word) : (s.setPc w).v = s.v := rfl
@[simp] theorem State.setPc_i (s : State) (w : Word) : (s.setPc w).i = s.i := rfl
@[simp] theorem State.setPc_pc (s : State) (w : Word) : (s.setPc w).pc = w := rfl
@[simp] theorem State.setPc_stack (s : State) (w : Word) : (s.setPc w).stack = s.stack := rfl
@[simp] theorem State.setPc_sp (s : State) (w : Word) : (s.setPc w).sp = s.sp := rfl
@[simp] theorem State.setPc_mem (s : State) (w : Word) : (s.setPc w).mem = s.mem := rfl
@[simp] theorem State.setPc_display (s : State) (w : Word) : (s.setPc w).display = s.display := rfl
@[simp] theorem State.setPc_delay (s : State) (w : Word) : (s.setPc w).delay = s.delay := rfl
@[simp] theorem State.setPc_sound (s : State) (w : Word) : (s.setPc w).sound = s.sound := rfl
@[simp] theorem State.setPc_keys (s : State) (w : Word) : (s.setPc w).keys = s.keys := rfl
@[simp] theorem State.setPc_runState (s : State) (w : Word) : (s.setPc w).runState = s.runState := rfl
@[simp] theorem State.setPc_fault (s : State) (w : Word) : (s.setPc w).fault = s.fault := rfl
@[simp] theorem State.setPc_draws (s : State) (w : Word) : (s.setPc w).draws = s.draws := rfl
@[simp] theorem State.setPc_reg (s : State) (w : Word) (j : RegIdx) : (s.setPc w).reg j = s.reg j := rfl
@[simp] theorem State.setPc_byte (s : State) (w : Word) (j : Nat) : (s.setPc w).byte j = s.byte j := rfl
@[simp] theorem State.setPc_pixel (s : State) (w : Word) (j : Nat) : (s.setPc w).pixel j = s.pixel j := rfl

@[simp] theorem State.setByte_v (s : State) (a : Nat) (b : Byte) : (s.setByte a b).v = s.v := rfl
@[simp] theorem State.setByte_i (s : State) (a : Nat) (b : Byte) : (s.setByte a b).i = s.i := rfl
@[simp] theorem State.setByte_pc (s : State) (a : Nat) (b : Byte) : (s.setByte a b).pc = s.pc := rfl
@[simp] theorem State.setByte_stack (s : State) (a : Nat) (b : Byte) : (s.setByte a b).stack = s.stack := rfl
@[simp] theorem State.setByte_sp (s : State) (a : Nat) (b : Byte) : (s.setByte a b).sp = s.sp := rfl
@[simp] theorem State.setByte_mem (s : State) (a : Nat) (b : Byte) : (s.setByte a b).mem = Memory.write s.mem a b := rfl
@[simp] theorem State.setByte_display (s : State) (a : Nat) (b : Byte) : (s.setByte a b).display = s.display := rfl
@[simp] theorem State.setByte_delay (s : State) (a : Nat) (b : Byte) : (s.setByte a b).delay = s.delay := rfl
@[simp] theorem State.setByte_sound (s : State) (a : Nat) (b : Byte) : (s.setByte a b).sound = s.sound := rfl
@[simp] theorem State.setByte_keys (s : State) (a : Nat) (b : Byte) : (s.setByte a b).keys = s.keys := rfl
@[simp] theorem State.setByte_runState (s : State) (a : Nat) (b : Byte) : (s.setByte a b).runState = s.runState := rfl
@[simp] theorem State.setByte_fault (s : State) (a : Nat) (b : Byte) : (s.setByte a b).fault = s.fault := rfl
@[simp] theorem State.setByte_draws (s : State) (a : Nat) (b : Byte) : (s.setByte a b).draws = s.draws := rfl
@[simp] theorem State.setByte_reg (s : State) (a : Nat) (b : Byte) (j : RegIdx) : (s.setByte a b).reg j = s.reg j := rfl
@[simp] theorem State.setByte_pixel (s : State) (a : Nat) (b : Byte) (j : Nat) : (s.setByte a b).pixel j = s.pixel j := rfl

@[simp] theorem State.setPixel_v (s : State) (k : Nat) (b : Bool) : (s.setPixel k b).v = s.v := rfl
@[simp] theorem State.setPixel_i (s : State) (k : Nat) (b : Bool) : (s.setPixel k b).i = s.i := rfl
@[simp] theorem State.setPixel_pc (s : State) (k : Nat) (b : Bool) : (s.setPixel k b).pc = s.pc := rfl
@[simp] theorem State.setPixel_stack (s : State) (k : Nat) (b : Bool) : (s.setPixel k b).stack = s.stack := rfl
@[simp] theorem State.setPixel_sp (s : State) (k : Nat) (b : Bool) : (s.setPixel k b).sp = s.sp := rfl
@[simp] theorem State.setPixel_mem (s : State) (k : Nat) (b : Bool) : (s.setPixel k b).mem = s.mem := rfl
@[simp] theorem State.setPixel_display (s : State) (k : Nat) (b : Bool) : (s.setPixel k b).display = Screen.setCell s.display k b := rfl
@[simp] theorem State.setPixel_delay (s : State) (k : Nat) (b : Bool) : (s.setPixel k b).delay = s.delay := rfl
@[simp] theorem State.setPixel_sound (s : State) (k : Nat) (b : Bool) : (s.setPixel k b).sound = s.sound := rfl
@[simp] theorem State.setPixel_keys (s : State) (k : Nat) (b : Bool) : (s.setPixel k b).keys = s.keys := rfl
@[simp] theorem State.setPixel_runState (s : State) (k : Nat) (b : Bool) : (s.setPixel k b).runState = s.runState := rfl
@[simp] theorem State.setPixel_fault (s : State) (k : Nat) (b : Bool) : (s.setPixel k b).fault = s.fault := rfl
@[simp] theorem State.setPixel_draws (s : State) (k : Nat) (b : Bool) : (s.setPixel k b).draws = s.draws := rfl
@[simp] theorem State.setPixel_reg (s : State) (k : Nat) (b : Bool) (j : RegIdx) : (s.setPixel k b).reg j = s.reg j := rfl
@[simp] theorem State.setPixel_byte (s : State) (k : Nat) (b : Bool) (j : Nat) : (s.setPixel k b).byte j = s.byte j := rfl

@[simp] theorem State.clearDisplay_v (s : State) : s.clearDisplay.v = s.v := rfl
@[simp] theorem State.clearDisplay_i (s : State) : s.clearDisplay.i = s.i := rfl
@[simp] theorem State.clearDisplay_pc (s : State) : s.clearDisplay.pc = s.pc := rfl
@[simp] theorem State.clearDisplay_stack (s : State) : s.clearDisplay.stack = s.stack := rfl
@[simp] theorem State.clearDisplay_sp (s : State) : s.clearDisplay.sp = s.sp := rfl
@[simp] theorem State.clearDisplay_mem (s : State) : s.clearDisplay.mem = s.mem := rfl
@[simp] theorem State.clearDisplay_display (s : State) : s.clearDisplay.display = Screen.blank := rfl
@[simp] theorem State.clearDisplay_delay (s : State) : s.clearDisplay.delay = s.delay := rfl
@[simp] theorem State.clearDisplay_sound (s : State) : s.clearDisplay.sound = s.sound := rfl
@[simp] theorem State.clearDisplay_keys (s : State) : s.clearDisplay.keys = s.keys := rfl
@[simp] theorem State.clearDisplay_runState (s : State) : s.clearDisplay.runState = s.runState := rfl
@[simp] theorem State.clearDisplay_fault (s : State) : s.clearDisplay.fault = s.fault := rfl
@[simp] theorem State.clearDisplay_draws (s : State) : s.clearDisplay.draws = s.draws := rfl
@[simp] theorem State.clearDisplay_reg (s : State) (j : RegIdx) : s.clearDisplay.reg j = s.reg j := rfl
@[simp] theorem State.clearDisplay_byte (s : State) (j : Nat) : s.clearDisplay.byte j = s.byte j := rfl

@[simp] theorem advance_v (s : State) : (advance s).v = s.v := rfl
@[simp] theorem advance_i (s : State) : (advance s).i = s.i := rfl
@[simp] theorem advance_pc (s : State) : (advance s).pc = s.pc + 2 := rfl
@[simp] theorem advance_stack (s : State) : (advance s).stack = s.stack := rfl
@[simp] theorem advance_sp (s : State) : (advance s).sp = s.sp := rfl
@[simp] theorem advance_mem (s : State) : (advance s).mem = s.mem := rfl
@[simp] theorem advance_display (s : State) : (advance s).display = s.display := rfl
@[simp] theorem advance_delay (s : State) : (advance s).delay = s.delay := rfl
@[simp] theorem advance_sound (s : State) : (advance s).sound = s.sound := rfl
@[simp] theorem advance_keys (s : State) : (advance s).keys = s.keys := rfl
@[simp] theorem advance_runState (s : State) : (advance s).runState = s.runState := rfl
@[simp] theorem advance_fault (s : State) : (advance s).fault = s.fault := rfl
@[simp] theorem advance_draws (s : State) : (advance s).draws = s.draws := rfl
@[simp] theorem advance_reg (s : State) (j : RegIdx) : (advance s).reg j = s.reg j := rfl
@[simp] theorem advance_byte (s : State) (j : Nat) : (advance s).byte j = s.byte j := rfl
@[simp] theorem advance_pixel (s : State) (j : Nat) : (advance s).pixel j = s.pixel j := rfl

@[simp] theorem skip_v (s : State) : (skip s).v = s.v := rfl
@[simp] theorem skip_i (s : State) : (skip s).i = s.i := rfl
@[simp] theorem skip_pc (s : State) : (skip s).pc = s.pc + 2 := rfl
@[simp] theorem skip_stack (s : State) : (skip s).stack = s.stack := rfl
@[simp] theorem skip_sp (s : State) : (skip s).sp = s.sp := rfl
@[simp] theorem skip_mem (s : State) : (skip s).mem = s.mem := rfl
@[simp] theorem skip_display (s : State) : (skip s).display = s.display := rfl
@[simp] theorem skip_delay (s : State) : (skip s).delay = s.delay := rfl
@[simp] theorem skip_sound (s : State) : (skip s).sound = s.sound := rfl
@[simp] theorem skip_keys (s : State) : (skip s).keys = s.keys := rfl
@[simp] theorem skip_runState (s : State) : (skip s).runState = s.runState := rfl
@[simp] theorem skip_fault (s : State) : (skip s).fault = s.fault := rfl
@[simp] theorem skip_draws (s : State) : (skip s).draws = s.draws := rfl
@[simp] theorem skip_reg (s : State) (j : RegIdx) : (skip s).reg j = s.reg j := rfl
@[simp] theorem skip_byte (s : State) (j : Nat) : (skip s).byte j = s.byte j := rfl
@[simp] theorem skip_pixel (s : State) (j : Nat) : (skip s).pixel j = s.pixel j := rfl

@[simp] theorem raise_v (s : State) (f : FaultValue) : (raise f s).v = s.v := rfl
@[simp] theorem raise_i (s : State) (f : FaultValue) : (raise f s).i = s.i := rfl
@[simp] theorem raise_pc (s : State) (f : FaultValue) : (raise f s).pc = s.pc := rfl
@[simp] theorem raise_stack (s : State) (f : FaultValue) : (raise f s).stack = s.stack := rfl
@[simp] theorem raise_sp (s : State) (f : FaultValue) : (raise f s).sp = s.sp := rfl
@[simp] theorem raise_mem (s : State) (f : FaultValue) : (raise f s).mem = s.mem := rfl
@[simp] theorem raise_display (s : State) (f : FaultValue) : (raise f s).display = s.display := rfl
@[simp] theorem raise_delay (s : State) (f : FaultValue) : (raise f s).delay = s.delay := rfl
@[simp] theorem raise_sound (s : State) (f : FaultValue) : (raise f s).sound = s.sound := rfl
@[simp] theorem raise_keys (s : State) (f : FaultValue) : (raise f s).keys = s.keys := rfl
@[simp] theorem raise_runState (s : State) (f : FaultValue) : (raise f s).runState = .quit := rfl
@[simp] theorem raise_fault (s : State) (f : FaultValue) : (raise f s).fault = some f := rfl
@[simp] theorem raise_draws (s : State) (f : FaultValue) : (raise f s).draws = s.draws := rfl
@[simp] theorem raise_reg (s : State) (f : FaultValue) (j : RegIdx) : (raise f s).reg j = s.reg j := rfl
@[simp] theorem raise_byte (s : State) (f : FaultValue) (j : Nat) : (raise f s).byte j = s.byte j := rfl
@[simp] theorem raise_pixel (s : State) (f : FaultValue) (j : Nat) : (raise f s).pixel j = s.pixel j := rfl

@[simp] theorem tick_v (s : State) : (tick s).v = s.v := rfl
@[simp] theorem tick_i (s : State) : (tick s).i = s.i := rfl
@[simp] theorem tick_pc (s : State) : (tick s).pc = s.pc := rfl
@[simp] theorem tick_stack (s : State) : (tick s).stack = s.stack := rfl
@[simp] theorem tick_sp (s : State) : (tick s).sp = s.sp := rfl
@[simp] theorem tick_mem (s : State) : (tick s).mem = s.mem := rfl
@[simp] theorem tick_display (s : State) : (tick s).display = s.display := rfl
@[simp] theorem tick_delay (s : State) : (tick s).delay = countDown s.delay := rfl
@[simp] theorem tick_sound (s : State) : (tick s).sound = countDown s.sound := rfl
@[simp] theorem tick_keys (s : State) : (tick s).keys = s.keys := rfl
@[simp] theorem tick_runState (s : State) : (tick s).runState = s.runState := rfl
@[simp] theorem tick_fault (s : State) : (tick s).fault = s.fault := rfl
@[simp] theorem tick_draws (s : State) : (tick s).draws = s.draws := rfl
@[simp] theorem tick_reg (s : State) (j : RegIdx) : (tick s).reg j = s.reg j := rfl
@[simp] theorem tick_byte (s : State) (j : Nat) : (tick s).byte j = s.byte j := rfl
@[simp] theorem tick_pixel (s : State) (j : Nat) : (tick s).pixel j = s.pixel j := rfl

@[simp] theorem setKeys_v (s : State) (k : Vector Bool 16) : (setKeys k s).v = s.v := rfl
@[simp] theorem setKeys_i (s : State) (k : Vector Bool 16) : (setKeys k s).i = s.i := rfl
@[simp] theorem setKeys_pc (s : State) (k : Vector Bool 16) : (setKeys k s).pc = s.pc := rfl
@[simp] theorem setKeys_stack (s : State) (k : Vector Bool 16) : (setKeys k s).stack = s.stack := rfl
@[simp] theorem setKeys_sp (s : State) (k : Vector Bool 16) : (setKeys k s).sp = s.sp := rfl
@[simp] theorem setKeys_mem (s : State) (k : Vector Bool 16) : (setKeys k s).mem = s.mem := rfl
@[simp] theorem setKeys_display (s : State) (k : Vector Bool 16) : (setKeys k s).display = s.display := rfl
@[simp] theorem setKeys_delay (s : State) (k : Vector Bool 16) : (setKeys k s).delay = s.delay := rfl
@[simp] theorem setKeys_sound (s : State) (k : Vector Bool 16) : (setKeys k s).sound = s.sound := rfl
@[simp] theorem setKeys_keys (s : State) (k : Vector Bool 16) : (setKeys k s).keys = k := rfl
@[simp] theorem setKeys_runState (s : State) (k : Vector Bool 16) : (setKeys k s).runState = s.runState := rfl
@[simp] theorem setKeys_fault (s : State) (k : Vector Bool 16) : (setKeys k s).fault = s.fault := rfl
@[simp] theorem setKeys_draws (s : State) (k : Vector Bool 16) : (setKeys k s).draws = s.draws := rfl
@[simp] theorem setKeys_reg (s : State) (k : Vector Bool 16) (j : RegIdx) : (setKeys k s).reg j = s.reg j := rfl
@[simp] theorem setKeys_byte (s : State) (k : Vector Bool 16) (j : Nat) : (setKeys k s).byte j = s.byte j := rfl
@[simp] theorem setKeys_pixel (s : State) (k : Vector Bool 16) (j : Nat) : (setKeys k s).pixel j = s.pixel j := rfl

/-- Two states with the same fields are the same. -/
theorem State.ext_fields {s t : State} (h1 : t.v = s.v) (h2 : t.i = s.i) (h3 : t.pc = s.pc) (h4 : t.stack = s.stack)
    (h5 : t.sp = s.sp) (h6 : t.mem = s.mem) (h7 : t.display = s.display) (h8 : t.delay = s.delay)
    (h9 : t.sound = s.sound) (h10 : t.keys = s.keys) (h11 : t.runState = s.runState) (h12 : t.fault = s.fault)
    (h13 : t.draws = s.draws) : t = s := by
  cases s
  cases t
  simp_all

end Sys2Proof.Machine
end

