-- ==== Sys2Proof/Laws/Ops.lean ====
section
/-! SUPPORT. What each shared operation does, said once: registers, memory cells and Display cells after an update, the
stack, the fetch, the flag write, and the loop of checked accesses. -/

namespace Sys2Proof.Machine

@[simp] theorem memTop_eq : memTop = 4095 := rfl

@[simp] theorem memSize_eq : Config.memSize = 4096 := rfl

@[simp] theorem progBase_eq : Config.progBase = 512 := rfl

@[simp] theorem fontBase_eq : Config.fontBase = 0 := rfl

@[simp] theorem width_eq : Config.width = 64 := rfl

@[simp] theorem height_eq : Config.height = 32 := rfl

@[simp] theorem stackDepth_eq : Config.stackDepth = 12 := rfl

@[simp] theorem vfLast_eq : Config.vfLast = true := rfl

/-! Registers, bytes and cells after an update. -/

/-- A register written is read back, every other register is as before (R8). -/
@[simp] theorem State.setReg_reg (s : State) (x : RegIdx) (b : Byte) (y : RegIdx) :
    (s.setReg x b).reg y = if y = x then b else s.reg y := by
  simp only [State.reg, State.setReg, Vector.getElem_set, BitVec.toNat_inj]
  by_cases h : y = x
  · simp [h]
  · simp [h, Ne.symm h]

/-- The flag register after a flag write (R13). -/
@[simp] theorem State.setFlag_reg (s : State) (f : Byte) (y : RegIdx) :
    (s.setFlag f).reg y = if y = 0xF then f else s.reg y := State.setReg_reg s 0xF f y

/-- A byte written is read back, every other byte is as before (R8), in a memory of canonical form. -/
theorem State.setByte_byte (s : State) (a : Nat) (b : Byte) (hm : s.mem.wf) (j : Nat) :
    (s.setByte a b).byte j = if j = a then b else s.byte j := Memory.read_write s.mem a b hm j

/-- A byte write inside the address space keeps the canonical form. -/
theorem State.setByte_wf (s : State) (a : Nat) (b : Byte) (hm : s.mem.wf) (ha : a < 4096) : (s.setByte a b).mem.wf :=
  Memory.write_wf s.mem a b hm ha

/-- A Display cell written is read back, every other cell is as before (R8). -/
theorem State.setPixel_pixel (s : State) (k : Nat) (b : Bool) (hk : k < 2048) (j : Nat) :
    (s.setPixel k b).pixel j = if j = k then b else s.pixel j := Screen.cell_setCell s.display k j b hk

/-- Every cell is 0 after the clear (R97). -/
@[simp] theorem State.clearDisplay_pixel (s : State) (k : Nat) : s.clearDisplay.pixel k = false := Screen.cell_blank k

/-- Two register files with the same registers are the same. -/
theorem State.v_ext {s t : State} (h : ∀ x, t.reg x = s.reg x) : t.v = s.v := by
  apply Vector.ext
  intro i hi
  have := h (BitVec.ofNat 4 i)
  simpa [State.reg, Nat.mod_eq_of_lt (show i < 16 from hi)] using this

/-! The flag computations and the flag write. -/

/-- The result, then the flag: with `X = 0xF` the register ends as the flag (R78). -/
@[simp] theorem writeResultAndFlag_eq (x : RegIdx) (r f : Byte) (s : State) :
    writeResultAndFlag x r f s = (s.setReg x r).setFlag f := rfl

/-- A flag is 0 or 1 (R88). -/
theorem flagByte_zero_or_one (b : Bool) : flagByte b = 0 ∨ flagByte b = 1 := by cases b <;> simp [flagByte]

/-! The fetch (R61). -/

/-- A fetch fails exactly above 4094 (R34). -/
theorem fetch_eq_none (s : State) : fetch s = none ↔ 4094 < s.pc.toNat := by
  simp only [fetch, memTop_eq]
  split <;> simp <;> omega

/-- A fetch gives the two bytes at `pc`, big-endian (R31, R61). -/
theorem fetch_eq_some (s : State) (w : Word) :
    fetch s = some w ↔ s.pc.toNat ≤ 4094 ∧ w = wordOfBytes (s.byte s.pc.toNat) (s.byte (s.pc.toNat + 1)) := by
  simp only [fetch, memTop_eq]
  split
  · simp
    omega
  · simp only [Option.some.injEq]
    constructor
    · rintro rfl
      exact ⟨by omega, rfl⟩
    · rintro ⟨-, rfl⟩
      rfl

/-- After a successful fetch the advance does not overflow (R62). -/
theorem advance_pc_toNat (s : State) (h : s.pc.toNat ≤ 4094) : (advance s).pc.toNat = s.pc.toNat + 2 := by
  simp [BitVec.toNat_add]
  omega

/-! The stack (R18). -/

/-- A push succeeds exactly when fewer than 12 entries are valid (R18). -/
theorem push_eq_none (w : Word) (s : State) : push w s = none ↔ s.sp.val = 12 := by
  have := s.sp.isLt
  simp only [push]
  split <;> simp <;> omega

/-- What a successful push does (R18). -/
theorem push_eq_some (w : Word) (s t : State) (h : push w s = some t) :
    ∃ hs : s.sp.val < 12,
      t = { s with stack := s.stack.set s.sp.val w hs, sp := ⟨s.sp.val + 1, Nat.succ_lt_succ hs⟩ } := by
  simp only [push] at h
  split at h
  · exact ⟨by assumption, by simpa using h.symm⟩
  · simp at h

/-- A pop succeeds exactly when an entry is valid (R18). -/
theorem pop_eq_none (s : State) : pop s = none ↔ s.sp.val = 0 := by
  simp only [pop]
  split <;> simp <;> omega

/-- What a successful pop does (R18). -/
theorem pop_eq_some (s : State) (p : Word × State) (h : pop s = some p) :
    ∃ hs : 0 < s.sp.val,
      p = (s.stack[s.sp.val - 1]'(by omega), { s with sp := ⟨s.sp.val - 1, by omega⟩ }) := by
  simp only [pop] at h
  split at h
  · exact ⟨by assumption, by simpa using h.symm⟩
  · simp at h

/-! The loop of checked accesses (R36, R93). -/

/-- `n` accesses without a check: what `accessLoop` does as long as every address is in bounds. -/
def iterAccess (act : Nat → State → State) : Nat → Nat → State → State
  | 0, _, s => s
  | n + 1, k, s => iterAccess act n (k + 1) (act k s)

/-- What an access loop does: the accesses below 4096, then, if some are left, the fault at the first address above 4095
(R36). -/
theorem accessLoop_eq (base : Nat) (act : Nat → State → State) (n k : Nat) (s : State) :
    accessLoop base act n k s =
      if 4096 - (base + k) < n then
        raise (.outOfBounds (base + k + (4096 - (base + k)))) (iterAccess act (4096 - (base + k)) k s)
      else iterAccess act n k s := by
  induction n generalizing k s with
  | zero => simp [accessLoop, iterAccess]
  | succ n ih =>
    simp only [accessLoop, memTop_eq]
    split
    · have h0 : 4096 - (base + k) = 0 := by omega
      simp [h0, iterAccess]
    · rw [ih]
      have hm : 4096 - (base + k) = (4096 - (base + (k + 1))) + 1 := by omega
      by_cases hn : 4096 - (base + (k + 1)) < n
      · rw [if_pos hn, if_pos (by omega), hm]
        simp only [iterAccess]
        congr 2
        omega
      · rw [if_neg hn, if_neg (by omega)]
        rfl

/-- An access loop whose addresses all lie in memory makes all its accesses. -/
theorem accessLoop_inBounds (base : Nat) (act : Nat → State → State) (n k : Nat) (s : State) (h : n ≤ 4096 - (base + k)) :
    accessLoop base act n k s = iterAccess act n k s := by
  rw [accessLoop_eq, if_neg (by omega)]

/-- An access loop that runs past 4095 makes the accesses below, then faults at the first address above 4095 (R36). -/
theorem accessLoop_past (base : Nat) (act : Nat → State → State) (n k : Nat) (s : State) (h : 4096 - (base + k) < n) :
    accessLoop base act n k s =
      raise (.outOfBounds (max (base + k) 4096)) (iterAccess act (4096 - (base + k)) k s) := by
  rw [accessLoop_eq, if_pos h]
  congr 2
  omega

/-- Accesses keep what each access keeps. -/
theorem iterAccess_keeps {α : Type} (f : State → α) (act : Nat → State → State) (hf : ∀ k s, f (act k s) = f s)
    (n k : Nat) (s : State) : f (iterAccess act n k s) = f s := by
  induction n generalizing k s with
  | zero => rfl
  | succ n ih => rw [iterAccess, ih, hf]

/-- The bytes after `n` register stores (R94): those of the registers at `base + k` to `base + k + n - 1`, every other as
before. -/
theorem storeRegs_bytes (base n k : Nat) (s : State) (hm : s.mem.wf) (hb : base + k + n ≤ 4096) (j : Nat) :
    (iterAccess (storeReg base) n k s).byte j =
      if base + k ≤ j ∧ j < base + k + n then s.reg (regOf (j - base)) else s.byte j := by
  induction n generalizing k s with
  | zero =>
    rw [if_neg (by omega)]
    rfl
  | succ n ih =>
    have hw : (storeReg base k s).mem.wf := State.setByte_wf s _ _ hm (by omega)
    rw [iterAccess, ih (k + 1) _ hw (by omega)]
    simp only [storeReg, State.setByte_reg, State.setByte_byte s _ _ hm]
    by_cases h1 : j = base + k
    · subst h1
      rw [if_neg (by omega), if_pos rfl, if_pos (by omega)]
      congr 2
      omega
    · rw [if_neg h1]
      by_cases h2 : base + (k + 1) ≤ j ∧ j < base + (k + 1) + n
      · rw [if_pos h2, if_pos (by omega)]
      · rw [if_neg h2, if_neg (by omega)]

/-- Register stores inside the address space keep the canonical form. -/
theorem storeRegs_wf (base n k : Nat) (s : State) (hm : s.mem.wf) (hb : base + k + n ≤ 4096) :
    (iterAccess (storeReg base) n k s).mem.wf := by
  induction n generalizing k s with
  | zero => exact hm
  | succ n ih => exact ih (k + 1) _ (State.setByte_wf s _ _ hm (by omega)) (by omega)

/-- The registers after `n` register loads (R95): `V[k]` to `V[k + n - 1]` from memory, every other as before. -/
theorem loadRegs_regs (base n k : Nat) (s : State) (hk : k + n ≤ 16) (x : RegIdx) :
    (iterAccess (loadReg base) n k s).reg x =
      if k ≤ x.toNat ∧ x.toNat < k + n then s.byte (base + x.toNat) else s.reg x := by
  induction n generalizing k s with
  | zero =>
    rw [if_neg (by omega)]
    rfl
  | succ n ih =>
    rw [iterAccess, ih (k + 1) _ (by omega)]
    simp only [loadReg, State.setReg_byte, State.setReg_reg]
    have hr : x = regOf k ↔ x.toNat = k := by
      rw [← BitVec.toNat_inj, regOf, BitVec.toNat_ofNat, Nat.mod_eq_of_lt (by omega)]
    by_cases h1 : x.toNat = k
    · rw [if_neg (by omega), if_pos (hr.2 h1), if_pos (by omega), h1]
    · by_cases h2 : k + 1 ≤ x.toNat ∧ x.toNat < k + 1 + n
      · rw [if_pos h2, if_pos (by omega)]
      · rw [if_neg h2, if_neg (fun h => h1 (hr.1 h)), if_neg (by omega)]

end Sys2Proof.Machine
end

