-- ==== Sys2Proof/Laws/Draw.lean ====
section
/-! SUPPORT. What the sprite-blit engine does: the cells, the flag and the fault after the bit loop and after the row loop
(spec/44_display.md R98, R99). -/

namespace Sys2Proof.Machine

/-! One cell. -/

/-- The cell is XORed with the sprite bit, every other cell is as before (R98). -/
theorem blitCell_pixel (bit : Bool) (k : Nat) (s : State) (hk : k < 2048) (j : Nat) :
    (blitCell bit k s).pixel j = if j = k then s.pixel k ^^ bit else s.pixel j := by
  unfold blitCell
  rw [State.setPixel_pixel _ _ _ hk]
  split
  · rfl
  · split <;> simp

/-- The flag becomes 1 on a collision and is kept otherwise; no other register changes (R98). -/
theorem blitCell_reg (bit : Bool) (k : Nat) (s : State) (y : RegIdx) :
    (blitCell bit k s).reg y = if y = 0xF ∧ s.pixel k = true ∧ bit = true then 1 else s.reg y := by
  unfold blitCell
  cases hp : s.pixel k <;> cases bit <;> simp

/-- Writing a register or a cell keeps what neither of them touches. -/
theorem blitCell_keeps {α : Type} (f : State → α) (h1 : ∀ b s, f (State.setFlag s b) = f s)
    (h2 : ∀ k b s, f (State.setPixel s k b) = f s) (bit : Bool) (k : Nat) (s : State) : f (blitCell bit k s) = f s := by
  unfold blitCell
  rw [h2]
  split
  · rw [h1]
  · rfl

/-! The bit loop of one row. -/

/-- The bit loop keeps what no register and no cell carries: `pc`, `I`, memory, the stack, the devices, the status. -/
theorem drawBits_keeps {α : Type} (f : State → α) (h1 : ∀ b s, f (State.setFlag s b) = f s)
    (h2 : ∀ k b s, f (State.setPixel s k b) = f s) (b : Byte) (y n c x : Nat) (s : State) :
    f (drawBits b y n c x s) = f s := by
  induction n generalizing c x s with
  | zero => rfl
  | succ n ih =>
    simp only [drawBits, width_eq]
    split
    · exact blitCell_keeps f h1 h2 _ _ _
    · rw [ih, blitCell_keeps f h1 h2]

/-- The cells after the bit loop: the next `n` columns up to the right edge are XORed with the sprite's bits (R98). -/
theorem drawBits_pixel (b : Byte) (y n c x : Nat) (s : State) (hx : x < 64) (hy : y < 32) (j : Nat) :
    (drawBits b y n c x s).pixel j =
      if j / 64 = y ∧ x ≤ j % 64 ∧ j % 64 < x + n then s.pixel j ^^ spriteBit b (c + (j % 64 - x)) else s.pixel j := by
  induction n generalizing c x s with
  | zero =>
    rw [if_neg (by omega)]
    rfl
  | succ n ih =>
    have hk : cellIndex x y < 2048 := by simp only [cellIndex, width_eq]; omega
    have hj : j = cellIndex x y ↔ j / 64 = y ∧ j % 64 = x := by simp only [cellIndex, width_eq]; omega
    simp only [drawBits, width_eq]
    split
    · rename_i hw
      rw [blitCell_pixel _ _ _ hk]
      by_cases h : j = cellIndex x y
      · rw [if_pos h, if_pos ⟨(hj.1 h).1, by omega, by omega⟩, (hj.1 h).2, ← h]
        simp
      · rw [if_neg h, if_neg]
        omega
    · rename_i hw
      rw [ih _ _ _ (by omega)]
      by_cases h : j = cellIndex x y
      · have := hj.1 h
        rw [if_neg (by omega), if_pos (by omega), blitCell_pixel _ _ _ hk, if_pos h, this.2, ← h]
        simp
      · rw [blitCell_pixel _ _ _ hk, if_neg h]
        by_cases h2 : j / 64 = y ∧ x + 1 ≤ j % 64 ∧ j % 64 < x + 1 + n
        · rw [if_pos h2, if_pos (by omega)]
          congr 2
          omega
        · rw [if_neg h2, if_neg (by omega)]

/-- Some of the next `n` sprite bits falls on a set cell: a collision in this row (R98). -/
def rowCollides (b : Byte) (y n c x : Nat) (s : State) : Prop :=
  ∃ i, i < n ∧ x + i < 64 ∧ s.pixel (cellIndex (x + i) y) = true ∧ spriteBit b (c + i) = true

/-- The registers after the bit loop: the flag is 1 if a bit fell on a set cell, all else is as before (R98). -/
theorem drawBits_reg (b : Byte) (y n c x : Nat) (s : State) (hx : x < 64) (hy : y < 32) (r : RegIdx) :
    (rowCollides b y n c x s → (drawBits b y n c x s).reg r = if r = 0xF then 1 else s.reg r) ∧
    (¬ rowCollides b y n c x s → (drawBits b y n c x s).reg r = s.reg r) := by
  induction n generalizing c x s with
  | zero => exact ⟨fun ⟨i, hi, _⟩ => absurd hi (by omega), fun _ => rfl⟩
  | succ n ih =>
    have hk : cellIndex x y < 2048 := by simp only [cellIndex, width_eq]; omega
    simp only [drawBits, width_eq]
    have first : rowCollides b y (n + 1) c x s ↔
        (s.pixel (cellIndex x y) = true ∧ spriteBit b c = true) ∨
          (x + 1 < 64 ∧ rowCollides b y n (c + 1) (x + 1) (blitCell (spriteBit b c) (cellIndex x y) s)) := by
      have hpix : ∀ i, (blitCell (spriteBit b c) (cellIndex x y) s).pixel (cellIndex (x + 1 + i) y) =
          s.pixel (cellIndex (x + 1 + i) y) := fun i => by
        rw [blitCell_pixel _ _ _ hk, if_neg (by simp only [cellIndex, width_eq]; omega)]
      constructor
      · rintro ⟨i, hi, hw, hp, hb⟩
        rcases i with _ | i
        · exact .inl ⟨hp, hb⟩
        · refine .inr ⟨by omega, i, by omega, by omega, ?_, ?_⟩
          · rw [hpix, ← hp]
            congr 2
            omega
          · rw [← hb]
            congr 1
            omega
      · rintro (⟨hp, hb⟩ | ⟨hx1, i, hi, hw, hp, hb⟩)
        · exact ⟨0, by omega, by omega, hp, hb⟩
        · refine ⟨i + 1, by omega, by omega, ?_, ?_⟩
          · rw [hpix] at hp
            rw [← hp]
            congr 2
            omega
          · rw [← hb]
            congr 1
            omega
    split
    · rename_i hw
      have hno : ¬ (x + 1 < 64) := by omega
      rw [blitCell_reg]
      constructor
      · intro h
        rcases first.1 h with ⟨hp, hb⟩ | ⟨h64, -⟩
        · simp [hp, hb]
        · exact absurd h64 hno
      · intro h
        have : ¬ (s.pixel (cellIndex x y) = true ∧ spriteBit b c = true) := fun hpb => h (first.2 (.inl hpb))
        rw [if_neg (fun hr => this hr.2)]
    · rename_i hw
      have h64 : x + 1 < 64 := by omega
      have ih := ih (c + 1) (x + 1) (blitCell (spriteBit b c) (cellIndex x y) s) h64
      have hreg := blitCell_reg (spriteBit b c) (cellIndex x y) s r
      by_cases hc : rowCollides b y n (c + 1) (x + 1) (blitCell (spriteBit b c) (cellIndex x y) s)
      · refine ⟨fun _ => ?_, fun h => absurd (first.2 (.inr ⟨h64, hc⟩)) h⟩
        rw [ih.1 hc, hreg]
        split
        · rfl
        · rename_i hr
          rw [if_neg (fun h => hr h.1)]
      · rw [ih.2 hc, hreg]
        constructor
        · intro h
          rcases first.1 h with ⟨hp, hb⟩ | ⟨-, h2⟩
          · simp [hp, hb]
          · exact absurd h2 hc
        · intro h
          have : ¬ (s.pixel (cellIndex x y) = true ∧ spriteBit b c = true) := fun hpb => h (first.2 (.inl hpb))
          rw [if_neg (fun hr => this hr.2)]

/-! The row loop. -/

/-- The row loop keeps what no register, no cell and no fault touches: `pc`, `I`, memory, the stack, the devices. -/
theorem drawRows_keeps {α : Type} (f : State → α) (h1 : ∀ b s, f (State.setFlag s b) = f s)
    (h2 : ∀ k b s, f (State.setPixel s k b) = f s) (h3 : ∀ e s, f (raise e s) = f s) (base x0 n row y : Nat) (s : State) :
    f (drawRows base x0 n row y s) = f s := by
  induction n generalizing row y s with
  | zero => rfl
  | succ n ih =>
    simp only [drawRows, memTop_eq, height_eq]
    split
    · exact h3 _ _
    · split
      · exact drawBits_keeps f h1 h2 _ _ _ _ _ _
      · rw [ih, drawBits_keeps f h1 h2]

/-- The rows of `n` that lie on the Display from row `y` on and whose bytes lie in memory from address `a` on: those the
draw completes (R98, R36). -/
def rowsDrawn (n y a : Nat) : Nat := min (min n (32 - y)) (4096 - a)

/-- The fault of the row loop: `OutOfBounds` at the first address above 4095 if a row on the Display lies there, none
otherwise (R98, R36). -/
theorem drawRows_status (base x0 n row y : Nat) (s : State) (hy : y < 32) :
    (rowsDrawn n y (base + row) = min n (32 - y) →
      (drawRows base x0 n row y s).runState = s.runState ∧ (drawRows base x0 n row y s).fault = s.fault) ∧
    (rowsDrawn n y (base + row) < min n (32 - y) →
      (drawRows base x0 n row y s).runState = .quit ∧
        (drawRows base x0 n row y s).fault = some (.outOfBounds (base + row + rowsDrawn n y (base + row)))) := by
  induction n generalizing row y s with
  | zero => exact ⟨fun _ => ⟨rfl, rfl⟩, fun h => absurd h (by simp [rowsDrawn])⟩
  | succ n ih =>
    have kr := fun (b : Byte) (y : Nat) => drawBits_keeps State.runState (fun _ _ => rfl) (fun _ _ _ => rfl) b y 8 0 x0 s
    have kf := fun (b : Byte) (y : Nat) => drawBits_keeps State.fault (fun _ _ => rfl) (fun _ _ _ => rfl) b y 8 0 x0 s
    simp only [drawRows, memTop_eq, height_eq]
    split
    · have h0 : rowsDrawn (n + 1) y (base + row) = 0 := by simp only [rowsDrawn]; omega
      rw [h0]
      exact ⟨fun h => absurd h (by omega), fun _ => ⟨rfl, rfl⟩⟩
    · split
      · refine ⟨fun _ => ⟨kr _ _, kf _ _⟩, fun h => absurd h ?_⟩
        simp only [rowsDrawn]
        omega
      · have h1 : rowsDrawn (n + 1) y (base + row) = rowsDrawn n (y + 1) (base + (row + 1)) + 1 := by
          simp only [rowsDrawn]
          omega
        have ih := ih (row + 1) (y + 1) (drawBits (s.byte (base + row)) y 8 0 x0 s) (by omega)
        rw [kr, kf] at ih
        rw [h1]
        refine ⟨fun h => ih.1 (by omega), fun h => ?_⟩
        have := ih.2 (by omega)
        refine ⟨this.1, this.2.trans ?_⟩
        congr 2
        omega

/-- The cells after the row loop: row `r` of the sprite is XORed onto display row `y + r`, in the columns `x0` to `x0 + 7`
that lie on the Display (R98, R99). -/
theorem drawRows_pixel (base x0 n row y : Nat) (s : State) (hx : x0 < 64) (hy : y < 32) (j : Nat) :
    (drawRows base x0 n row y s).pixel j =
      if y ≤ j / 64 ∧ j / 64 < y + rowsDrawn n y (base + row) ∧ x0 ≤ j % 64 ∧ j % 64 < x0 + 8 then
        s.pixel j ^^ spriteBit (s.byte (base + row + (j / 64 - y))) (j % 64 - x0)
      else s.pixel j := by
  induction n generalizing row y s with
  | zero =>
    rw [if_neg (by simp only [rowsDrawn]; omega)]
    rfl
  | succ n ih =>
    have kb := fun (b : Byte) (a : Nat) => drawBits_keeps (fun t => t.byte a) (fun _ _ => rfl) (fun _ _ _ => rfl) b y 8 0 x0 s
    simp only [drawRows, memTop_eq, height_eq]
    split
    · rw [if_neg (by simp only [rowsDrawn]; omega)]
      rfl
    · split
      · rw [drawBits_pixel _ _ _ _ _ _ hx hy]
        have h1 : rowsDrawn (n + 1) y (base + row) = 1 := by simp only [rowsDrawn]; omega
        rw [h1]
        by_cases h : j / 64 = y ∧ x0 ≤ j % 64 ∧ j % 64 < x0 + 8
        · rw [if_pos h, if_pos (by omega)]
          congr 2
          · congr 1
            omega
          · omega
        · rw [if_neg h, if_neg (by omega)]
      · have h1 : rowsDrawn (n + 1) y (base + row) = rowsDrawn n (y + 1) (base + (row + 1)) + 1 := by
          simp only [rowsDrawn]
          omega
        rw [ih _ _ _ (by omega), h1, drawBits_pixel _ _ _ _ _ _ hx hy]
        simp only [kb]
        by_cases h : j / 64 = y ∧ x0 ≤ j % 64 ∧ j % 64 < x0 + 8
        · rw [if_pos h, if_neg (by omega), if_pos (by omega)]
          congr 2
          · congr 1
            omega
          · omega
        · rw [if_neg h]
          by_cases h2 : y + 1 ≤ j / 64 ∧ j / 64 < y + 1 + rowsDrawn n (y + 1) (base + (row + 1)) ∧ x0 ≤ j % 64 ∧ j % 64 < x0 + 8
          · rw [if_pos h2, if_pos (by omega)]
            congr 2
            congr 1
            omega
          · rw [if_neg h2, if_neg (by omega)]

/-- Some bit of the rows the draw completes falls on a set cell (R98, R99). -/
def drawCollides (base x0 n row y : Nat) (s : State) : Prop :=
  ∃ r, r < rowsDrawn n y (base + row) ∧ rowCollides (s.byte (base + row + r)) (y + r) 8 0 x0 s

/-- The registers after the row loop: the flag is 1 if a bit fell on a set cell, all else is as before (R98, R99). -/
theorem drawRows_reg (base x0 n row y : Nat) (s : State) (hx : x0 < 64) (hy : y < 32) (q : RegIdx) :
    (drawCollides base x0 n row y s → (drawRows base x0 n row y s).reg q = if q = 0xF then 1 else s.reg q) ∧
    (¬ drawCollides base x0 n row y s → (drawRows base x0 n row y s).reg q = s.reg q) := by
  induction n generalizing row y s with
  | zero => exact ⟨fun ⟨r, hr, _⟩ => absurd hr (by simp [rowsDrawn]), fun _ => rfl⟩
  | succ n ih =>
    simp only [drawRows, memTop_eq, height_eq]
    split
    · have h0 : rowsDrawn (n + 1) y (base + row) = 0 := by simp only [rowsDrawn]; omega
      refine ⟨fun ⟨r, hr, _⟩ => absurd hr (by omega), fun _ => rfl⟩
    · have hbits := drawBits_reg (s.byte (base + row)) y 8 0 x0 s hx hy q
      split
      · have h1 : rowsDrawn (n + 1) y (base + row) = 1 := by simp only [rowsDrawn]; omega
        have hiff : drawCollides base x0 (n + 1) row y s ↔ rowCollides (s.byte (base + row)) y 8 0 x0 s := by
          constructor
          · rintro ⟨r, hr, hc⟩
            have : r = 0 := by omega
            subst this
            exact hc
          · exact fun hc => ⟨0, by omega, hc⟩
        rw [hiff]
        exact hbits
      · have h1 : rowsDrawn (n + 1) y (base + row) = rowsDrawn n (y + 1) (base + (row + 1)) + 1 := by
          simp only [rowsDrawn]
          omega
        have kb := fun (a : Nat) =>
          drawBits_keeps (fun t => t.byte a) (fun _ _ => rfl) (fun _ _ _ => rfl) (s.byte (base + row)) y 8 0 x0 s
        have kp : ∀ r i, x0 + i < 64 → (drawBits (s.byte (base + row)) y 8 0 x0 s).pixel (cellIndex (x0 + i) (y + 1 + r)) =
            s.pixel (cellIndex (x0 + i) (y + 1 + r)) := fun r i hi => by
          rw [drawBits_pixel _ _ _ _ _ _ hx hy, if_neg]
          simp only [cellIndex, width_eq]
          omega
        have hiff : drawCollides base x0 (n + 1) row y s ↔
            rowCollides (s.byte (base + row)) y 8 0 x0 s ∨
              drawCollides base x0 n (row + 1) (y + 1) (drawBits (s.byte (base + row)) y 8 0 x0 s) := by
          constructor
          · rintro ⟨r, hr, hc⟩
            rcases r with _ | r
            · exact .inl hc
            · obtain ⟨i, hi, hw, hp, hb⟩ := hc
              refine .inr ⟨r, by omega, i, hi, hw, ?_, ?_⟩
              · rw [kp r i hw, ← hp]
                congr 2
                omega
              · rw [kb, ← hb]
                congr 2
                omega
          · rintro (hc | ⟨r, hr, i, hi, hw, hp, hb⟩)
            · exact ⟨0, by omega, hc⟩
            · refine ⟨r + 1, by omega, i, hi, hw, ?_, ?_⟩
              · rw [kp r i hw] at hp
                rw [← hp]
                congr 2
                omega
              · rw [kb] at hb
                rw [← hb]
                congr 2
                omega
        have ih := ih (row + 1) (y + 1) (drawBits (s.byte (base + row)) y 8 0 x0 s) (by omega)
        rw [hiff]
        by_cases hc : drawCollides base x0 n (row + 1) (y + 1) (drawBits (s.byte (base + row)) y 8 0 x0 s)
        · refine ⟨fun _ => ?_, fun h => absurd (.inr hc) h⟩
          rw [ih.1 hc]
          by_cases hr : rowCollides (s.byte (base + row)) y 8 0 x0 s
          · rw [hbits.1 hr]
            split <;> rfl
          · rw [hbits.2 hr]
        · rw [ih.2 hc]
          refine ⟨fun h => hbits.1 (h.resolve_right hc), fun h => hbits.2 (fun hr => h (.inl hr))⟩

end Sys2Proof.Machine
end

