-- ==== Sys2Proof/Laws/PerInstr.lean ====
section
/-! SUPPORT. The statements made of every instruction, one lemma per constructor: the word of an instruction selects its own
row of the opcode table (spec/30_encoding.md R50). -/

namespace Sys2Proof.Laws.EncodesToRow

/-- The instruction is well-formed, its row is one of the table's, and its word satisfies `w & mask = match` (R50). -/
def Statement (i : Instr) : Prop := i.wellFormed = true ∧ i.row ∈ opcodeTable ∧ i.row.selects (encode i) = true

/-- A row is in the table and selects the word of the instruction. -/
theorem of_selects (i : Instr) (h1 : i.row ∈ opcodeTable) (h2 : i.row.selects (encode i) = true) : Statement i :=
  ⟨wellFormed_all i, h1, h2⟩

theorem cls : Statement (.cls) :=
  of_selects _ (by decide) (by decide)

theorem ret : Statement (.ret) :=
  of_selects _ (by decide) (by decide)

theorem jp (nnn : Addr) : Statement (.jp nnn) :=
  of_selects _ (by simp [opcodeTable, Instr.row]) (by simp [selects_iff_fields, Instr.row, encode]; simp [opField, xField, yField, nField])

theorem call (nnn : Addr) : Statement (.call nnn) :=
  of_selects _ (by simp [opcodeTable, Instr.row]) (by simp [selects_iff_fields, Instr.row, encode]; simp [opField, xField, yField, nField])

theorem seImm (x : RegIdx) (nn : Byte) : Statement (.seImm x nn) :=
  of_selects _ (by simp [opcodeTable, Instr.row]) (by simp [selects_iff_fields, Instr.row, encode]; simp [opField, xField, yField, nField])

theorem sneImm (x : RegIdx) (nn : Byte) : Statement (.sneImm x nn) :=
  of_selects _ (by simp [opcodeTable, Instr.row]) (by simp [selects_iff_fields, Instr.row, encode]; simp [opField, xField, yField, nField])

theorem seReg (x : RegIdx) (y : RegIdx) : Statement (.seReg x y) :=
  of_selects _ (by simp [opcodeTable, Instr.row]) (by simp [selects_iff_fields, Instr.row, encode]; simp [opField, xField, yField, nField])

theorem ldImm (x : RegIdx) (nn : Byte) : Statement (.ldImm x nn) :=
  of_selects _ (by simp [opcodeTable, Instr.row]) (by simp [selects_iff_fields, Instr.row, encode]; simp [opField, xField, yField, nField])

theorem addImm (x : RegIdx) (nn : Byte) : Statement (.addImm x nn) :=
  of_selects _ (by simp [opcodeTable, Instr.row]) (by simp [selects_iff_fields, Instr.row, encode]; simp [opField, xField, yField, nField])

theorem ldReg (x : RegIdx) (y : RegIdx) : Statement (.ldReg x y) :=
  of_selects _ (by simp [opcodeTable, Instr.row]) (by simp [selects_iff_fields, Instr.row, encode]; simp [opField, xField, yField, nField])

theorem orReg (x : RegIdx) (y : RegIdx) : Statement (.orReg x y) :=
  of_selects _ (by simp [opcodeTable, Instr.row]) (by simp [selects_iff_fields, Instr.row, encode]; simp [opField, xField, yField, nField])

theorem andReg (x : RegIdx) (y : RegIdx) : Statement (.andReg x y) :=
  of_selects _ (by simp [opcodeTable, Instr.row]) (by simp [selects_iff_fields, Instr.row, encode]; simp [opField, xField, yField, nField])

theorem xorReg (x : RegIdx) (y : RegIdx) : Statement (.xorReg x y) :=
  of_selects _ (by simp [opcodeTable, Instr.row]) (by simp [selects_iff_fields, Instr.row, encode]; simp [opField, xField, yField, nField])

theorem addReg (x : RegIdx) (y : RegIdx) : Statement (.addReg x y) :=
  of_selects _ (by simp [opcodeTable, Instr.row]) (by simp [selects_iff_fields, Instr.row, encode]; simp [opField, xField, yField, nField])

theorem sub (x : RegIdx) (y : RegIdx) : Statement (.sub x y) :=
  of_selects _ (by simp [opcodeTable, Instr.row]) (by simp [selects_iff_fields, Instr.row, encode]; simp [opField, xField, yField, nField])

theorem shr (x : RegIdx) (y : RegIdx) : Statement (.shr x y) :=
  of_selects _ (by simp [opcodeTable, Instr.row]) (by simp [selects_iff_fields, Instr.row, encode]; simp [opField, xField, yField, nField])

theorem subn (x : RegIdx) (y : RegIdx) : Statement (.subn x y) :=
  of_selects _ (by simp [opcodeTable, Instr.row]) (by simp [selects_iff_fields, Instr.row, encode]; simp [opField, xField, yField, nField])

theorem shl (x : RegIdx) (y : RegIdx) : Statement (.shl x y) :=
  of_selects _ (by simp [opcodeTable, Instr.row]) (by simp [selects_iff_fields, Instr.row, encode]; simp [opField, xField, yField, nField])

theorem sneReg (x : RegIdx) (y : RegIdx) : Statement (.sneReg x y) :=
  of_selects _ (by simp [opcodeTable, Instr.row]) (by simp [selects_iff_fields, Instr.row, encode]; simp [opField, xField, yField, nField])

theorem ldI (nnn : Addr) : Statement (.ldI nnn) :=
  of_selects _ (by simp [opcodeTable, Instr.row]) (by simp [selects_iff_fields, Instr.row, encode]; simp [opField, xField, yField, nField])

theorem rnd (x : RegIdx) (nn : Byte) : Statement (.rnd x nn) :=
  of_selects _ (by simp [opcodeTable, Instr.row]) (by simp [selects_iff_fields, Instr.row, encode]; simp [opField, xField, yField, nField])

theorem drw (x : RegIdx) (y : RegIdx) (n : Nibble) : Statement (.drw x y n) :=
  of_selects _ (by simp [opcodeTable, Instr.row]) (by simp [selects_iff_fields, Instr.row, encode]; simp [opField, xField, yField, nField])

theorem addI (x : RegIdx) : Statement (.addI x) :=
  of_selects _ (by simp [opcodeTable, Instr.row]) (by simp [selects_iff_fields, Instr.row, encode]; simp [opField, xField, yField, nField])

theorem storeRegs (x : RegIdx) : Statement (.storeRegs x) :=
  of_selects _ (by simp [opcodeTable, Instr.row]) (by simp [selects_iff_fields, Instr.row, encode]; simp [opField, xField, yField, nField])

theorem loadRegs (x : RegIdx) : Statement (.loadRegs x) :=
  of_selects _ (by simp [opcodeTable, Instr.row]) (by simp [selects_iff_fields, Instr.row, encode]; simp [opField, xField, yField, nField])

end Sys2Proof.Laws.EncodesToRow
end

