-- ==== Sys2Proof/Laws/Step.lean ====
section
/-! SUPPORT. What a step can do, said once (spec/40_step_cycle.md R59), that every meaning answers a next state, and the
frames as lists of parts. -/

namespace Sys2Proof.Machine

/-- Every instruction has its effect, or takes its fault, as a next state (R66): no meaning stops. -/
theorem exec_next (i : Instr) (s : State) : ∃ t, exec i s = .next t := by
  cases i
  case call nnn =>
    simp only [exec, execCall]
    split <;> exact ⟨_, rfl⟩
  case ret =>
    simp only [exec, execRet]
    split <;> exact ⟨_, rfl⟩
  all_goals exact ⟨_, rfl⟩

/-- The four ways a step can end in a next state (R59). -/
theorem step_cases (s t : State) (h : step s = .next t) :
    (s.runState = .paused ∧ t = s) ∨
    (s.runState = .running ∧ fetch s = none ∧ t = fetchFault s) ∨
    (s.runState = .running ∧ ∃ w, fetch s = some w ∧ decode w = .error (.unimplementedOpcode w) ∧ t = illegal w s) ∨
    (s.runState = .running ∧ ∃ w i, fetch s = some w ∧ decode w = .ok i ∧ exec i (advance s) = .next t) := by
  unfold step at h
  split at h
  · simp at h
  · exact .inl ⟨by assumption, by simpa using h.symm⟩
  · split at h
    · exact .inr (.inl ⟨by assumption, by assumption, by simpa using h.symm⟩)
    · rename_i w hw
      split at h
      · exact .inr (.inr (.inr ⟨by assumption, w, _, hw, by assumption, h⟩))
      · rename_i e he
        have := decode_error w e he
        subst this
        exact .inr (.inr (.inl ⟨by assumption, w, hw, he, by simpa using h.symm⟩))

/-- A step stops only in `Quit` (R60). -/
theorem step_not_next (s : State) (h : ∀ t, step s ≠ .next t) : s.runState = .quit := by
  unfold step at h
  split at h
  · assumption
  · exact absurd rfl (h s)
  · exfalso
    split at h
    · exact h _ rfl
    · split at h
      · rename_i i _
        obtain ⟨t, ht⟩ := exec_next i (advance s)
        exact h t ht
      · exact h _ rfl

/-! Frames. -/

/-- A part is the same as in the state itself. -/
theorem Part.same_refl (s : State) (p : Part) : p.same s s := by cases p <;> simp [Part.same]

/-- What only some parts change, more parts may change. -/
theorem OnlyChanges.mono {ps qs : List Part} {s t : State} (h : OnlyChanges ps s t) (hq : ∀ p ∈ ps, p ∈ qs) :
    OnlyChanges qs s t := fun p hp => h p fun hp' => hp (hq p hp')

/-- Two changes one after the other. -/
theorem OnlyChanges.trans {ps : List Part} {s t u : State} (h : OnlyChanges ps s t) (h' : OnlyChanges ps t u) :
    OnlyChanges ps s u := by
  intro p hp
  have a := h p hp
  have b := h' p hp
  cases p <;> simp only [Part.same] at *
  case regs | memory | display =>
    intro k
    rw [b, a]
  case stack =>
    refine ⟨b.1.trans a.1, fun k hk hlt => ?_⟩
    rw [b.2 k hk (by rw [a.1]; exact hlt), a.2 k hk hlt]
  all_goals exact b.trans a

/-- A register write changes registers only. -/
theorem setReg_onlyChanges (s : State) (x : RegIdx) (b : Byte) : OnlyChanges [.regs] s (s.setReg x b) := by
  intro p hp
  cases p <;> simp_all [Part.same]

/-- A register write changes that register only. -/
theorem setReg_sameRegsBut (s : State) (x : RegIdx) (b : Byte) : SameRegsBut [x] s (s.setReg x b) := by
  intro k hk
  simp_all

/-- The result and flag write changes registers only. -/
theorem writeResultAndFlag_onlyChanges (x : RegIdx) (r f : Byte) (s : State) :
    OnlyChanges [.regs] s (writeResultAndFlag x r f s) := by
  intro p hp
  cases p <;> simp_all [Part.same]

/-- The result and flag write changes `V[X]` and the flag register only. -/
theorem writeResultAndFlag_sameRegsBut (x : RegIdx) (r f : Byte) (s : State) :
    SameRegsBut [x, 0xF] s (writeResultAndFlag x r f s) := by
  intro k hk
  simp_all

/-- A write of `pc` changes `pc` only. -/
theorem setPc_onlyChanges (s : State) (w : Word) : OnlyChanges [.pc] s (s.setPc w) := by
  intro p hp
  cases p <;> simp_all [Part.same]

/-- A conditional skip changes `pc` only. -/
theorem skipIf_onlyChanges (c : Bool) (s : State) : OnlyChanges [.pc] s (skipIf c s) := by
  cases c
  · exact fun p _ => Part.same_refl s p
  · exact setPc_onlyChanges s _

/-- `pc` after a conditional skip (R67). -/
theorem skipIf_pc (c : Bool) (s : State) : (skipIf c s).pc = if c then s.pc + 2 else s.pc := by cases c <;> rfl

/-- A write of `I` changes `I` only. -/
theorem setI_onlyChanges (s : State) (w : Word) : OnlyChanges [.i] s (s.setI w) := by
  intro p hp
  cases p <;> simp_all [Part.same]

/-- Register stores change memory only (R94). -/
theorem storeRegs_onlyChanges (base n k : Nat) (s : State) : OnlyChanges [.memory] s (iterAccess (storeReg base) n k s) := by
  have keep {α : Type} (f : State → α) (h : ∀ k s, f (storeReg base k s) = f s) :
      f (iterAccess (storeReg base) n k s) = f s := iterAccess_keeps f _ h n k s
  intro p hp
  cases p
  case memory => simp at hp
  case regs => exact fun j => keep (fun s => s.reg j) fun _ _ => rfl
  case stack =>
    have h1 := keep State.stack fun _ _ => rfl
    exact ⟨keep State.sp fun _ _ => rfl, fun j hj _ => by rw [h1]⟩
  case display => exact fun j => keep (fun s => s.pixel j) fun _ _ => rfl
  case i => exact keep State.i fun _ _ => rfl
  case pc => exact keep State.pc fun _ _ => rfl
  case delay => exact keep State.delay fun _ _ => rfl
  case sound => exact keep State.sound fun _ _ => rfl
  case keys => exact keep State.keys fun _ _ => rfl
  case runState => exact keep State.runState fun _ _ => rfl
  case fault => exact keep State.fault fun _ _ => rfl
  case draws => exact keep State.draws fun _ _ => rfl

/-- Register loads change registers only (R95). -/
theorem loadRegs_onlyChanges (base n k : Nat) (s : State) : OnlyChanges [.regs] s (iterAccess (loadReg base) n k s) := by
  have keep {α : Type} (f : State → α) (h : ∀ k s, f (loadReg base k s) = f s) :
      f (iterAccess (loadReg base) n k s) = f s := iterAccess_keeps f _ h n k s
  intro p hp
  cases p
  case regs => simp at hp
  case memory => exact fun j => keep (fun s => s.byte j) fun _ _ => rfl
  case stack =>
    have h1 := keep State.stack fun _ _ => rfl
    exact ⟨keep State.sp fun _ _ => rfl, fun j hj _ => by rw [h1]⟩
  case display => exact fun j => keep (fun s => s.pixel j) fun _ _ => rfl
  case i => exact keep State.i fun _ _ => rfl
  case pc => exact keep State.pc fun _ _ => rfl
  case delay => exact keep State.delay fun _ _ => rfl
  case sound => exact keep State.sound fun _ _ => rfl
  case keys => exact keep State.keys fun _ _ => rfl
  case runState => exact keep State.runState fun _ _ => rfl
  case fault => exact keep State.fault fun _ _ => rfl
  case draws => exact keep State.draws fun _ _ => rfl

/-- The row loop changes registers, the Display and, by its fault, the status only (R98). -/
theorem drawRows_onlyChanges (base x0 n row y : Nat) (s : State) :
    OnlyChanges [.regs, .display, .runState, .fault] s (drawRows base x0 n row y s) := by
  have keep {α : Type} (f : State → α) (h1 : ∀ b s, f (State.setFlag s b) = f s)
      (h2 : ∀ k b s, f (State.setPixel s k b) = f s) (h3 : ∀ e s, f (raise e s) = f s) :
      f (drawRows base x0 n row y s) = f s := drawRows_keeps f h1 h2 h3 base x0 n row y s
  intro p hp
  cases p
  case regs | display | runState | fault => simp at hp
  case memory => exact fun j => keep (fun s => s.byte j) (fun _ _ => rfl) (fun _ _ _ => rfl) fun _ _ => rfl
  case stack =>
    have h1 := keep State.stack (fun _ _ => rfl) (fun _ _ _ => rfl) fun _ _ => rfl
    exact ⟨keep State.sp (fun _ _ => rfl) (fun _ _ _ => rfl) fun _ _ => rfl, fun j hj _ => by rw [h1]⟩
  case i => exact keep State.i (fun _ _ => rfl) (fun _ _ _ => rfl) fun _ _ => rfl
  case pc => exact keep State.pc (fun _ _ => rfl) (fun _ _ _ => rfl) fun _ _ => rfl
  case delay => exact keep State.delay (fun _ _ => rfl) (fun _ _ _ => rfl) fun _ _ => rfl
  case sound => exact keep State.sound (fun _ _ => rfl) (fun _ _ _ => rfl) fun _ _ => rfl
  case keys => exact keep State.keys (fun _ _ => rfl) (fun _ _ _ => rfl) fun _ _ => rfl
  case draws => exact keep State.draws (fun _ _ => rfl) (fun _ _ _ => rfl) fun _ _ => rfl

/-- A fault taken changes the run state and the latch only (R66). -/
theorem raise_onlyChanges (f : FaultValue) (s : State) : OnlyChanges [.runState, .fault] s (raise f s) := by
  intro p hp
  cases p <;> simp_all [Part.same]

/-- An access loop changes what its accesses change and, by its fault, the status (R36). -/
theorem accessLoop_onlyChanges (ps : List Part) (base : Nat) (act : Nat → State → State) (n k : Nat) (s : State)
    (h : ∀ n k s, OnlyChanges ps s (iterAccess act n k s)) :
    OnlyChanges (.runState :: .fault :: ps) s (accessLoop base act n k s) := by
  have more : ∀ n, OnlyChanges (.runState :: .fault :: ps) s (iterAccess act n k s) := fun n =>
    (h n k s).mono (by simp +contextual)
  by_cases hb : 4096 - (base + k) < n
  · rw [accessLoop_past _ _ _ _ _ hb]
    exact (more _).trans ((raise_onlyChanges _ _).mono (by simp))
  · rw [accessLoop_inBounds _ _ _ _ _ (by omega)]
    exact more n

/-- A fault taken is latched, in `Quit` (R66). -/
theorem raise_took (f : FaultValue) (s : State) : Took f (raise f s) := ⟨rfl, rfl⟩

end Sys2Proof.Machine
end

