-- ==== Sys2Proof/Tests/Slice0.lean ====
section
/-! SUPPORT. The model's own tests: ill-formed terms are refused, every constructor's decoding of a word written out from
spec/30_encoding.md R47 and R50, single steps with the results of spec/95_test_vectors.md, and witnesses that the hypotheses
of the statements are met. Expected values come from the spec, each test names where. -/

namespace Sys2Proof.Machine.Tests

section

-- One theorem after the other: their kernel evaluations in parallel would each take a thread's stack.
set_option Elab.async false

/-- The state an outcome ends in; a stop shows as a state that no test expects. -/
def after : Result → State
  | .next t => t
  | .fault _ => { State.reset with draws := 999 }
  | .refused _ => { State.reset with draws := 999 }

/-- Whether an outcome is a next state. -/
def goesOn : Result → Bool
  | .next _ => true
  | .fault _ => false
  | .refused _ => false

/-- The state after reset with one word placed at an address and `pc` there. -/
def at_ (pc : Word) (w : Word) : State := placeWord w (State.reset.setPc pc)

/-- The state after reset with one word placed at 0x200. -/
def fresh (w : Word) : State := at_ 0x200 w

/-- `mem[a...]` gets the bytes. -/
def withBytes (a : Nat) (bs : List Byte) (s : State) : State := { s with mem := Memory.writeBytes s.mem a bs }

/-- `V[0]` and `V[1]` get the two bytes. -/
def withTwo (a b : Byte) (s : State) : State := (s.setReg 0 a).setReg 1 b

/-- The stack gets `n` valid entries, each 0x20A. -/
def withStack (n : Fin 13) (s : State) : State := { s with stack := Vector.replicate 12 0x20A, sp := n }

/-- `V[0]` and `V[0xF]`. -/
def resultAndFlag (s : State) : Byte × Byte := (s.reg 0, s.reg 0xF)

/-! ## WellFormed: every check refuses an ill-formed term -/

/-- A register number, an 8-bit and a 12-bit immediate that do not fit their fields (R46). -/
theorem test_operand_too_wide :
    Operand.inRange ⟨16, 4⟩ = false ∧ Operand.inRange ⟨256, 8⟩ = false ∧ Operand.inRange ⟨4096, 12⟩ = false := by decide

/-- The largest value of each field fits (R46, R48). -/
theorem test_operand_largest :
    Operand.inRange ⟨15, 4⟩ = true ∧ Operand.inRange ⟨255, 8⟩ = true ∧ Operand.inRange ⟨4095, 12⟩ = true := by decide

/-- A font of 513 bytes does not fit before 0x200, one of 512 does (R124 (a)). -/
theorem test_font_size :
    fontFits (List.replicate 513 0) = false ∧ fontFits (List.replicate 512 0) = true := by decide +kernel

/-- A program of 3585 bytes does not fit, one of 3584 does (R124 (b), 95 section 2.7). -/
theorem test_program_size :
    programFits (List.replicate 3585 0) = false ∧ programFits (List.replicate 3584 0) = true := by decide +kernel

/-! ## Decoding: a word of every row, written out bit by bit from R47 and R50 -/

/-- Group 0: whole words (R50, R51). -/
theorem test_decode_group0 : decode 0b0000_0000_1110_0000 = .ok .cls ∧ decode 0b0000_0000_1110_1110 = .ok .ret := by decide

/-- Format NNN: op, then 12 bits (R47). -/
theorem test_decode_nnn :
    decode 0b0001_0010_0000_0100 = .ok (.jp 0x204) ∧ decode 0b0010_1010_1011_1100 = .ok (.call 0xABC) ∧
      decode 0b1010_1011_1100_1101 = .ok (.ldI 0xBCD) := by decide

/-- Format XNN: op, X, then 8 bits (R47). -/
theorem test_decode_xnn :
    decode 0b0011_1010_0111_1111 = .ok (.seImm 0xA 0x7F) ∧ decode 0b0100_0001_1000_0010 = .ok (.sneImm 1 0x82) ∧
      decode 0b0110_1111_1010_1011 = .ok (.ldImm 0xF 0xAB) ∧ decode 0b0111_0010_1111_0101 = .ok (.addImm 2 0xF5) ∧
      decode 0b1100_0001_0000_1111 = .ok (.rnd 1 0x0F) := by decide

/-- Format XYK: op, X, Y, a constant (R47, R50). -/
theorem test_decode_xyk :
    decode 0b0101_0001_0010_0000 = .ok (.seReg 1 2) ∧ decode 0b1001_1101_0011_0000 = .ok (.sneReg 0xD 3) := by decide

/-- Group 8 (R50, R54). -/
theorem test_decode_group8 :
    decode 0b1000_1010_1011_0000 = .ok (.ldReg 0xA 0xB) ∧ decode 0b1000_1010_1011_0001 = .ok (.orReg 0xA 0xB) ∧
      decode 0b1000_1010_1011_0010 = .ok (.andReg 0xA 0xB) ∧ decode 0b1000_1010_1011_0011 = .ok (.xorReg 0xA 0xB) ∧
      decode 0b1000_1010_1011_0100 = .ok (.addReg 0xA 0xB) ∧ decode 0b1000_1010_1011_0101 = .ok (.sub 0xA 0xB) ∧
      decode 0b1000_1010_1011_0110 = .ok (.shr 0xA 0xB) ∧ decode 0b1000_1010_1011_0111 = .ok (.subn 0xA 0xB) ∧
      decode 0b1000_1010_1011_1110 = .ok (.shl 0xA 0xB) := by decide

/-- Format XYN: op, X, Y, N (R47). -/
theorem test_decode_xyn : decode 0b1101_0001_0010_0011 = .ok (.drw 1 2 3) := by decide

/-- Group F (R50, R54). -/
theorem test_decode_groupF :
    decode 0b1111_0100_0001_1110 = .ok (.addI 4) ∧ decode 0b1111_0010_0101_0101 = .ok (.storeRegs 2) ∧
      decode 0b1111_1110_0110_0101 = .ok (.loadRegs 0xE) := by decide

/-- Words beside a row, in every group with a second level, select nothing (R51 to R54). -/
theorem test_decode_illegal :
    [0x0000, 0x01E0, 0x00EF, 0x5121, 0x8AB8, 0x8ABF, 0x9AB1, 0xB000, 0xE09E, 0xF007, 0xF01F, 0xFFFF].all
      (fun w => decode w = .error (.unimplementedOpcode w)) = true := by decide

/-- The fields of `0xABCD` (95 section 1, E1). -/
theorem test_fields_E1 :
    opField 0xABCD = 0xA ∧ nnnField 0xABCD = 0xBCD ∧ nnField 0xABCD = 0xCD ∧ nField 0xABCD = 0xD ∧
      xField 0xABCD = 0xB ∧ yField 0xABCD = 0xC := by decide

/-- Bytes `12 04`, the first at the lower address, are `0x1204` (R31). -/
theorem test_decode_bytes : decodeBytes [0x12, 0x04, 0xFF] = .ok (.jp 0x204, [0xFF]) := by rfl

/-- One byte is no instruction (R45). -/
theorem test_decode_truncated : decodeBytes [0x12] = .error .truncated := by rfl

/-- The table's numbering: bit 0 is the word's least significant bit. -/
theorem test_table_word : decodeTableWord 16 0x1204 = some (.jp 0x204) ∧ decodeTableWord 16 0xFFFF = none := by decide

/-- A word placed for the next step is fetched and run. -/
theorem test_fetch_word : (after (step (State.reset.withFetchWord 16 0xA300))).i = 0x300 := by decide +kernel

/-! ## Single steps, with the results of spec/95_test_vectors.md section 2 -/

/-- 2.2: the last fetchable word runs, `pc` becomes 4096. -/
theorem test_fetch_last : let t := after (step (at_ 4094 0x6A55)); t.reg 0xA = 0x55 ∧ t.pc = 4096 ∧ t.fault = none := by
  decide +kernel

/-- 2.2: a fetch at 4095 faults, `pc` unchanged. -/
theorem test_fetch_past :
    let t := after (step (State.reset.setPc 4095)); t.fault = some (.outOfBounds 4095) ∧ t.runState = .quit ∧ t.pc = 4095 := by
  decide +kernel

/-- 2.2: an odd `pc` is legal. -/
theorem test_fetch_odd : let t := after (step (at_ 0x201 0x602A)); t.reg 0 = 0x2A ∧ t.pc = 0x203 := by decide +kernel

/-- 2.7: one step after reset alone. -/
theorem test_step_after_reset :
    let t := after (step State.reset); t.fault = some (.unimplementedOpcode 0x0000) ∧ t.pc = 0x202 := by decide +kernel

/-- 2.3: `0x1204` at 0x20A. -/
theorem test_jp : (after (step (at_ 0x20A 0x1204))).pc = 0x204 := by decide +kernel

/-- 2.3: `0x2300` with 11 entries fills the stack. -/
theorem test_call :
    let t := after (step (withStack 11 (fresh 0x2300))); t.stack[11] = 0x202 ∧ t.sp = 12 ∧ t.pc = 0x300 := by decide +kernel

/-- 2.3: `0x2300` on a full stack. -/
theorem test_call_full :
    let t := after (step (withStack 12 (fresh 0x2300))); t.fault = some .stackOverflow ∧ t.pc = 0x202 ∧ t.sp = 12 := by
  decide +kernel

/-- 2.3: `0x00EE` at 0x220 with one entry. -/
theorem test_ret :
    let t := after (step (withStack 1 (at_ 0x220 0x00EE))); t.pc = 0x20A ∧ t.sp = 0 := by decide +kernel

/-- 2.3: `0x00EE` on an empty stack. -/
theorem test_ret_empty :
    let t := after (step (fresh 0x00EE)); t.fault = some .stackUnderflow ∧ t.pc = 0x202 := by decide +kernel

/-- 2.3: `0x3100` at 0x208, equal and not. -/
theorem test_seImm :
    (after (step (at_ 0x208 0x3100))).pc = 0x20C ∧ (after (step ((at_ 0x208 0x3100).setReg 1 5))).pc = 0x20A := by
  decide +kernel

/-- 2.3: `0x4011` and `0x4010` with `V[0] = 0x10`. -/
theorem test_sneImm :
    (after (step ((fresh 0x4011).setReg 0 0x10))).pc = 0x204 ∧ (after (step ((fresh 0x4010).setReg 0 0x10))).pc = 0x202 := by
  decide +kernel

/-- 2.3: `0x5120`, equal and not. -/
theorem test_seReg :
    (after (step (((fresh 0x5120).setReg 1 7).setReg 2 7))).pc = 0x204 ∧
      (after (step (((fresh 0x5120).setReg 1 7).setReg 2 8))).pc = 0x202 := by decide +kernel

/-- 2.3: `0x9120`, not equal and equal. -/
theorem test_sneReg :
    (after (step (((fresh 0x9120).setReg 1 7).setReg 2 8))).pc = 0x204 ∧
      (after (step (((fresh 0x9120).setReg 1 7).setReg 2 7))).pc = 0x202 := by decide +kernel

/-- 2.4: `0x6FAB`. -/
theorem test_ldImm : (after (step (fresh 0x6FAB))).reg 0xF = 0xAB := by decide +kernel

/-- 2.4: `0x72F5` with `V[2] = 0x10` wraps, the flag is unchanged. -/
theorem test_addImm :
    let t := after (step (((fresh 0x72F5).setReg 2 0x10).setReg 0xF 7)); t.reg 2 = 0x05 ∧ t.reg 0xF = 7 := by decide +kernel

/-- 2.4: `0x8010` with `V[1] = 0x2A`. -/
theorem test_ldReg : (after (step (withTwo 0 0x2A (fresh 0x8010)))).reg 0 = 0x2A := by decide +kernel

/-- 2.4: the logical operations on F0 and 3C, with 7 in the flag register before. -/
theorem test_logic :
    resultAndFlag (after (step ((withTwo 0xF0 0x3C (fresh 0x8011)).setReg 0xF 7))) = (0xFC, 7) ∧
      resultAndFlag (after (step ((withTwo 0xF0 0x3C (fresh 0x8012)).setReg 0xF 7))) = (0x30, 7) ∧
      resultAndFlag (after (step ((withTwo 0xF0 0x3C (fresh 0x8013)).setReg 0xF 7))) = (0xCC, 7) := by decide +kernel

/-- 2.4: `8XY4`, `8XY5`, `8XY7` on FF and 01. -/
theorem test_arith :
    resultAndFlag (after (step (withTwo 0xFF 0x01 (fresh 0x8014)))) = (0x00, 1) ∧
      resultAndFlag (after (step (withTwo 0xFF 0x01 (fresh 0x8015)))) = (0xFE, 1) ∧
      resultAndFlag (after (step (withTwo 0xFF 0x01 (fresh 0x8017)))) = (0x02, 0) := by decide +kernel

/-- 2.4: `8XY4`, `8XY5`, `8XY7` with the flag register as destination. -/
theorem test_arith_flag_destination :
    (after (step (withTwo 0 0x03 ((fresh 0x8F14).setReg 0xF 0xFF)))).reg 0xF = 0x01 ∧
      (after (step (withTwo 0 0x09 ((fresh 0x8F15).setReg 0xF 0x05)))).reg 0xF = 0x00 ∧
      (after (step (withTwo 0 0x09 ((fresh 0x8F17).setReg 0xF 0x05)))).reg 0xF = 0x01 := by decide +kernel

/-- 2.4: `0x8016` on 05 and `0x801E` on 81, with `V[1]` ignored. -/
theorem test_shifts :
    resultAndFlag (after (step (withTwo 0x05 0xAA (fresh 0x8016)))) = (0x02, 1) ∧
      resultAndFlag (after (step (withTwo 0x81 0xAA (fresh 0x801E)))) = (0x02, 1) := by decide +kernel

/-- 2.4: the shifts with the flag register as destination. -/
theorem test_shifts_flag_destination :
    (after (step ((fresh 0x8F16).setReg 0xF 0x80))).reg 0xF = 0x00 ∧
      (after (step ((fresh 0x8F1E).setReg 0xF 0xFF))).reg 0xF = 0x01 := by decide +kernel

/-- 2.4: `0xC10F` and `0xC155` for given random bytes. -/
theorem test_rnd :
    (storeRandom 1 0x0F 0xA7 State.reset).reg 1 = 0x07 ∧ (storeRandom 1 0x55 0xFF State.reset).reg 1 = 0x55 := by
  decide +kernel

/-- 2.5: `0xA300` with `I = 0xFFFF`. -/
theorem test_ldI : (after (step ((fresh 0xA300).setI 0xFFFF))).i = 0x0300 := by decide +kernel

/-- 2.5: `0xF21E` sets no flag, `0xF01E` wraps at 65536. -/
theorem test_addI :
    (let t := after (step ((((fresh 0xF21E).setI 0x0FF0).setReg 2 0xFF).setReg 0xF 1)); t.i = 0x10EF ∧ t.reg 0xF = 1) ∧
      (after (step (((fresh 0xF01E).setI 0xFFFF).setReg 0 1))).i = 0x0000 := by decide +kernel

/-- 2.5: `0xF155` stores two registers, `I` is kept. -/
theorem test_storeRegs :
    let t := after (step (withTwo 0x11 0x22 ((fresh 0xF155).setI 0x300)))
    t.byte 0x300 = 0x11 ∧ t.byte 0x301 = 0x22 ∧ t.byte 0x302 = 0 ∧ t.i = 0x300 := by decide +kernel

/-- 2.5: a store that runs past 4095 keeps what it has stored. -/
theorem test_storeRegs_past :
    let t := after (step (withTwo 0x11 0x22 ((fresh 0xF155).setI 4095)))
    t.byte 4095 = 0x11 ∧ t.fault = some (.outOfBounds 4096) ∧ t.pc = 0x202 := by decide +kernel

/-- 2.5: `0xF265` loads three registers. -/
theorem test_loadRegs :
    let t := after (step (withBytes 0x300 [0x11, 0x22, 0x33, 0x44] ((fresh 0xF265).setI 0x300)))
    t.reg 0 = 0x11 ∧ t.reg 2 = 0x33 ∧ t.reg 3 = 0 ∧ t.i = 0x300 := by decide +kernel

/-- 2.5: `0xF265` with `I = 4094`. -/
theorem test_loadRegs_past :
    let t := after (step (withBytes 4094 [0xAA, 0xBB] (((fresh 0xF265).setI 4094).setReg 2 3)))
    t.reg 1 = 0xBB ∧ t.reg 2 = 3 ∧ t.fault = some (.outOfBounds 4096) := by decide +kernel

/-- 2.6: `0x00E0` keeps the flag. -/
theorem test_cls :
    let t := after (step (((fresh 0x00E0).setPixel 5 true).setReg 0xF 1)); t.display = Screen.blank ∧ t.reg 0xF = 1 := by
  decide +kernel

/-- 2.6: `0xD013` at (61, 30): cells 1981, 1982, 1983 and 2045, no collision. -/
theorem test_drw_clipped :
    let t := after (step (withBytes 0x300 [0xF0, 0x90, 0xF0] (withTwo 61 30 ((fresh 0xD013).setI 0x300))))
    t.display[30] = 0xE000000000000000 ∧ t.display[31] = 0x2000000000000000 ∧ t.display[0] = 0 ∧ t.reg 0xF = 0 := by
  decide +kernel

/-- 2.6: `0xD013` at (0, 0) with (0, 0), (1, 1) and (5, 0) set: (0, 0) is turned off. -/
theorem test_drw_collision :
    let t := after (step (withBytes 0x300 [0xF0, 0x90, 0xF0]
      (((((fresh 0xD013).setI 0x300).setPixel 0 true).setPixel 65 true).setPixel 5 true)))
    t.display[0] = 0x2E ∧ t.display[1] = 0x0B ∧ t.display[2] = 0x0F ∧ t.reg 0xF = 1 := by decide +kernel

/-! ## The host's commands, with the results of section 2.7 -/

/-- `tick` from (0, 7). -/
theorem test_tick :
    let t := tick { State.reset with sound := 7 }; t.delay = 0 ∧ t.sound = 6 := by decide

/-- The example `load` of a 5-byte font and a 2-byte program. -/
theorem test_load :
    (match load [0xF0, 0x90, 0x90, 0x90, 0xF0] [0x61, 0x05] (State.reset.setPc 7) with
      | .loaded t => decide (t.byte 0 = 0xF0 ∧ t.byte 4 = 0xF0 ∧ t.byte 0x200 = 0x61 ∧ t.byte 0x201 = 0x05 ∧ t.pc = 0x200)
      | .romTooLarge _ => false
      | .fontTooLong => false) = true := by decide +kernel

/-- A program of 3585 bytes. -/
theorem test_load_too_large : load [0xF0] (List.replicate 3585 1) State.reset = .romTooLarge 3585 := by decide +kernel

/-! ## Witnesses: the hypotheses of each statement are met, at the edges of its clauses -/

/-- A state at every edge of the invariant. -/
def edge : State := { withStack 12 State.reset with pc := 4098, mem := [(0, 1), (4095, 0x7E)], stack := Vector.replicate 12 4096 }

/-- `edge` meets the invariant. -/
theorem edge_inv : edge.Inv :=
  ⟨by decide +kernel, by decide +kernel, by decide +kernel, by decide +kernel, by trivial⟩

/-- A latched state with a given payload. -/
def latched (f : FaultValue) : State := { State.reset with runState := .quit, fault := some f }

theorem witness_DecodeOfEncode : (Instr.drw 0xF 0xF 0xF).wellFormed = true ∧ (Instr.jp 0xFFF).wellFormed = true := by decide

theorem witness_EncodeOfDecode : decode 0xFF65 = .ok (.loadRegs 0xF) := by decide

theorem witness_DispatchFollowsOpcodeMap :
    decode 0x9AB0 = .ok (.sneReg 0xA 0xB) ∧ decode 0x9AB1 = .error (.unimplementedOpcode 0x9AB1) ∧
      Instr.cls.row ∈ opcodeTable ∧ Instr.cls.row.selects 0x00E0 = true := by decide

theorem witness_StepRunsDecodedInstruction :
    (at_ 4094 0x6A55).runState = .running ∧ fetch (at_ 4094 0x6A55) = some 0x6A55 ∧
      decode 0x6A55 = .ok (.ldImm 0xA 0x55) ∧ (Instr.ldImm 0xA 0x55).wellFormed = true := by decide +kernel

theorem witness_FetchIsBoundedAndBigEndian :
    (State.reset.setPc 4095).runState = .running ∧ 4094 < (State.reset.setPc 4095).pc.toNat ∧
      (State.reset.setPc 4094).runState = .running ∧ (State.reset.setPc 4094).pc.toNat ≤ 4094 := by decide

theorem witness_DispatchOrUnimplementedOpcode :
    (fresh 0x8AB6).runState = .running ∧ fetch (fresh 0x8AB6) = some 0x8AB6 ∧
      (Instr.shr 0 0).row ∈ opcodeTable ∧ (Instr.shr 0 0).row.selects 0x8AB6 = true ∧
      fetch (fresh 0x8AB8) = some 0x8AB8 ∧ ∀ r ∈ opcodeTable, r.selects 0x8AB8 = false := by decide +kernel

theorem witness_RunStateGate :
    (pause State.reset).runState = .paused ∧ (latched .stackOverflow).runState = .quit := by decide

theorem witness_StepKeepsInvariant : edge.Inv ∧ goesOn (step edge) = true := ⟨edge_inv, by decide +kernel⟩

theorem witness_CommandsKeepInvariant : edge.Inv ∧ runCommand .tick edge = .next (tick edge, .done) := ⟨edge_inv, rfl⟩

theorem witness_ReachableStatesMeetInvariant : Reachable (tick State.reset) :=
  .command .tick State.reset _ .done .reset rfl

theorem witness_InstructionsWriteOnlyTheirRegisters : goesOn (exec (.loadRegs 0xF) State.reset) = true := by decide +kernel

theorem witness_OnlyCallAndReturnChangeTheStack :
    goesOn (exec .cls State.reset) = true ∧ (∀ nnn, Instr.cls ≠ .call nnn) ∧ Instr.cls ≠ .ret :=
  ⟨by decide +kernel, by simp, by simp⟩

theorem witness_OnlyClearAndDrawChangeTheDisplay :
    goesOn (exec (.storeRegs 0xF) State.reset) = true ∧ Instr.storeRegs 0xF ≠ .cls ∧
      ∀ x y n, Instr.storeRegs 0xF ≠ .drw x y n :=
  ⟨by decide +kernel, by simp, by simp⟩

theorem witness_OnlyStoreChangesMemory :
    goesOn (exec (.loadRegs 0xF) State.reset) = true ∧ ∀ x, Instr.loadRegs 0xF ≠ .storeRegs x :=
  ⟨by decide +kernel, by simp⟩

theorem witness_OnlyIndexInstructionsChangeI :
    goesOn (exec (.storeRegs 2) State.reset) = true ∧ (∀ nnn, Instr.storeRegs 2 ≠ .ldI nnn) ∧
      ∀ x, Instr.storeRegs 2 ≠ .addI x :=
  ⟨by decide +kernel, by simp, by simp⟩

theorem witness_OnlyControlTransfersChangePc :
    goesOn (exec .cls State.reset) = true ∧ (∀ nnn, Instr.cls ≠ .jp nnn) ∧ (∀ nnn, Instr.cls ≠ .call nnn) ∧
      Instr.cls ≠ .ret ∧ (∀ x nn, Instr.cls ≠ .seImm x nn) ∧ (∀ x nn, Instr.cls ≠ .sneImm x nn) ∧
      (∀ x y, Instr.cls ≠ .seReg x y) ∧ ∀ x y, Instr.cls ≠ .sneReg x y :=
  ⟨by decide +kernel, by simp, by simp, by simp, by simp, by simp, by simp, by simp⟩

theorem witness_TimersAndKeysAreInvisible : goesOn (step (fresh 0xD123)) = true := by decide +kernel

theorem witness_TickAndStepCommute :
    goesOn (step (fresh 0x1200)) = true ∧ step (latched .stackOverflow) = .fault .stuckInQuit := ⟨by decide +kernel, rfl⟩

theorem witness_OnlyRandomReadsTheRandomByte :
    (∀ x nn, Instr.cls ≠ .rnd x nn) ∧ goesOn (exec .cls State.reset) = true := ⟨by simp, by decide +kernel⟩

/-- A step from `Running` that ends in `Quit`, in each of the seven ways. -/
def faultsFrom (s : State) : Bool :=
  decide (s.runState = .running) && goesOn (step s) && decide ((after (step s)).runState = .quit)

theorem witness_FaultsArePrecise :
    [State.reset.setPc 4095, fresh 0xFFFF, withStack 12 (fresh 0x2300), fresh 0x00EE, (fresh 0xF155).setI 4095,
      (fresh 0xF065).setI 4096, (fresh 0xD012).setI 4095].all faultsFrom = true ∧ ((fresh 0xF155).setI 4095).mem.wf := by
  decide +kernel

theorem witness_CallPushesReturnAddress : (withStack 11 State.reset).sp.val < 12 ∧ State.reset.sp.val < 12 := by decide

theorem witness_CallOnFullStackFaults : (withStack 12 State.reset).sp.val = 12 := by decide

theorem witness_ReturnPopsPc : 0 < (withStack 1 State.reset).sp.val ∧ 0 < (withStack 12 State.reset).sp.val := by decide

theorem witness_ReturnOnEmptyStackFaults : State.reset.sp.val = 0 := by decide

theorem witness_CallThenReturnRestores : (withStack 11 State.reset).sp.val < 12 := by decide

theorem witness_ResultIsNoFlag : (0xE : RegIdx) ≠ 0xF := by decide

theorem witness_FlagIsZeroOrOne :
    Instr.drw 0xF 0xF 0xF ∈ [Instr.addReg 0xF 0xF, .sub 0xF 0xF, .shr 0xF 0xF, .subn 0xF 0xF, .shl 0xF 0xF, .drw 0xF 0xF 0xF] ∧
      goesOn (exec (.drw 0xF 0xF 0xF) State.reset) = true := by decide +kernel

theorem witness_RandomByteIsMasked : (0xF0 : Byte).getLsbD 3 = false := by decide

theorem witness_StoreRegistersWritesMemory :
    (edge.setI 4080).mem.wf ∧ effAddr (edge.setI 4080) (0xF : RegIdx).toNat ≤ 4095 := by decide +kernel

theorem witness_StoreRegistersPastTheEndFaults :
    (edge.setI 4081).mem.wf ∧ 4095 < effAddr (edge.setI 4081) (0xF : RegIdx).toNat ∧
      4095 < effAddr (edge.setI 0xFFFF) (0 : RegIdx).toNat := by decide +kernel

theorem witness_LoadRegistersReadsMemory : effAddr (edge.setI 4095) (0 : RegIdx).toNat ≤ 4095 := by decide +kernel

theorem witness_LoadRegistersPastTheEndFaults :
    4095 < effAddr (edge.setI 4096) (0 : RegIdx).toNat ∧ 4095 < effAddr (edge.setI 4095) (1 : RegIdx).toNat := by
  decide +kernel

theorem witness_StoreThenLoadReloads : edge.mem.wf ∧ effAddr edge (0xF : RegIdx).toNat ≤ 4095 := by decide +kernel

theorem witness_StoredWordIsFetched :
    (edge.setI 4094).mem.wf ∧ effAddr (edge.setI 4094) (1 : RegIdx).toNat ≤ 4095 ∧ 0 < (1 : RegIdx).toNat ∧
      (4094 : Word).toNat = effAddr (edge.setI 4094) 0 := by decide +kernel

theorem witness_DrawMeetsClosedForm :
    rowsOnDisplay (State.reset.setI 0xFFFF) 0 0 = 0 ∧
      effAddr (State.reset.setI 4081) (rowsOnDisplay (State.reset.setI 4081) 0 0xF - 1) ≤ 4095 := by decide +kernel

theorem witness_DrawPastTheEndFaults :
    0 < rowsOnDisplay (State.reset.setI 4095) 0 2 ∧
      4095 < effAddr (State.reset.setI 4095) (rowsOnDisplay (State.reset.setI 4095) 0 2 - 1) ∧
      0 < rowsOnDisplay (State.reset.setI 4096) 0 1 ∧
      4095 < effAddr (State.reset.setI 4096) (rowsOnDisplay (State.reset.setI 4096) 0 1 - 1) := by decide +kernel

/-- A sprite with set bits, clipped at the right edge, on a Display with one of its cells set. -/
def spriteAtEdge : State := (((withBytes 0x300 [0xF0, 0x90] State.reset).setI 0x300).setReg 0 61).setPixel 62 true

theorem witness_DrawTwiceRestoresDisplay :
    effAddr spriteAtEdge (rowsOnDisplay spriteAtEdge 1 2 - 1) ≤ 4095 ∧ goesOn (exec (.drw 0 1 2) spriteAtEdge) = true ∧
      (after (exec (.drw 0 1 2) spriteAtEdge)).reg 0 = spriteAtEdge.reg 0 ∧
      (after (exec (.drw 0 1 2) spriteAtEdge)).reg 1 = spriteAtEdge.reg 1 ∧
      spritePixel spriteAtEdge 0 0 = true ∧ spriteAtEdge.pixel (spriteCell spriteAtEdge 0 1 0 0) = false ∧
      rowsOnDisplay spriteAtEdge 1 0 = 0 := by decide +kernel

/-- An empty Display, sprite bytes of zeros, and a row count of 0. -/
theorem witness_DrawWithoutCollision :
    goesOn (exec (.drw 0 1 0) State.reset) = true ∧
      (∀ r c, r < rowsOnDisplay State.reset 1 0xF → c < columnsOnDisplay State.reset 0 →
        State.reset.pixel (spriteCell State.reset 0 1 r c) = false) ∧
      (∀ r c, r < rowsOnDisplay State.reset 1 0xF → c < columnsOnDisplay State.reset 0 →
        spritePixel State.reset r c = false) := by
  refine ⟨by decide +kernel, ?_, ?_⟩
  · intro r c hr hc
    have h1 : rowsOnDisplay State.reset 1 0xF = 15 := by decide +kernel
    have h2 : columnsOnDisplay State.reset 0 = 8 := by decide +kernel
    have all : ∀ r, r < 15 → ∀ c, c < 8 → State.reset.pixel (spriteCell State.reset 0 1 r c) = false := by decide +kernel
    exact all r (by omega) c (by omega)
  · intro r c _ _
    simp [spritePixel, spriteBit, State.byte, State.reset, Memory.read, Memory.unlisted]

theorem witness_PauseResumeAndKeys :
    State.reset.runState = .running ∧ (pause State.reset).runState = .paused ∧
      (pause State.reset).runState ≠ .running ∧ (latched .stackOverflow).runState ≠ .paused := by decide

theorem witness_LoadCopiesFontAndProgram :
    edge.mem.wf ∧ fontFits (List.replicate 512 1) = true ∧ programFits (List.replicate 3584 2) = true ∧
      512 < (List.replicate 513 (1 : Byte)).length := by decide +kernel

theorem witness_RomTooLarge :
    (List.replicate 512 (1 : Byte)).length ≤ 512 ∧ 3584 < (List.replicate 3585 (1 : Byte)).length ∧
      (List.replicate 3584 (1 : Byte)).length ≤ 3584 := by decide +kernel

theorem witness_LoadedProgramIsFetched :
    ∃ t, edge.mem.wf ∧ load [] ([(0x1204 : Word)].flatMap bytesOfWord) edge = .loaded t ∧ (0x200 : Word).toNat = 0x200 + 2 * 0 :=
  ⟨_, by decide +kernel, rfl, by decide⟩

theorem latched_inv_low : (latched (.outOfBounds 4095)).Inv :=
  ⟨by decide +kernel, by decide +kernel, by decide +kernel, by decide +kernel, by simp [latched, payloadOk]⟩

theorem latched_inv_high : (latched (.outOfBounds 65550)).Inv :=
  ⟨by decide +kernel, by decide +kernel, by decide +kernel, by decide +kernel, by simp [latched, payloadOk]⟩

theorem latched_inv_opcode : (latched (.unimplementedOpcode 0xFFFF)).Inv :=
  ⟨by decide +kernel, by decide +kernel, by decide +kernel, by decide +kernel,
    show decode 0xFFFF = .error (.unimplementedOpcode 0xFFFF) by decide⟩

theorem latched_inv_stack : (latched .stackOverflow).Inv ∧ (latched .stackUnderflow).Inv :=
  ⟨⟨by decide +kernel, by decide +kernel, by decide +kernel, by decide +kernel, by trivial⟩,
    ⟨by decide +kernel, by decide +kernel, by decide +kernel, by decide +kernel, by trivial⟩⟩

theorem witness_OutputsShowFaultAndBeep :
    (latched (.outOfBounds 4095)).Inv ∧ (latched (.outOfBounds 65550)).Inv ∧
      (latched (.unimplementedOpcode 0xFFFF)).Inv ∧ (latched .stackOverflow).Inv ∧ (latched .stackUnderflow).Inv ∧
      edge.Inv ∧ edge.fault = none :=
  ⟨latched_inv_low, latched_inv_high, latched_inv_opcode, latched_inv_stack.1, latched_inv_stack.2, edge_inv, rfl⟩

theorem witness_FinishedRunIsFixedPoint : Finished (fresh 0x1200) := ⟨by decide, by decide, by decide +kernel⟩

end

end Sys2Proof.Machine.Tests
end

section
/-! SUPPORT. What one instruction may change: the two instructions that can answer in two ways taken apart once, and
the parts of the state each instruction may change (the column "written by" of spec/10_state.md R11, and the status
where spec/60_exceptions.md R66 lists a fault). -/

namespace Sys2Proof.Machine

/-! Calls and returns, the two instructions whose answer depends on the stack. -/

/-- A call faults on a full stack, otherwise it pushes and jumps (R70). -/
theorem exec_call_cases {nnn : Addr} {s t : State} (h : exec (.call nnn) s = .next t) :
    t = raise .stackOverflow s ∨ ∃ u, push s.pc s = some u ∧ t = u.setPc (zextAddr nnn) := by
  simp only [exec, execCall] at h
  split at h
  · exact .inl (Host.Outcome.next.inj h).symm
  · exact .inr ⟨_, by assumption, (Host.Outcome.next.inj h).symm⟩

/-- A return faults on an empty stack, otherwise it pops and jumps (R71). -/
theorem exec_ret_cases {s t : State} (h : exec .ret s = .next t) :
    t = raise .stackUnderflow s ∨ ∃ w u, pop s = some (w, u) ∧ t = u.setPc w := by
  simp only [exec, execRet] at h
  split at h
  · exact .inl (Host.Outcome.next.inj h).symm
  · exact .inr ⟨_, _, by assumption, (Host.Outcome.next.inj h).symm⟩

/-! Frames of the operations that `Laws/Step.lean` does not state. -/

/-- A push changes the stack only (R18). -/
theorem push_onlyChanges {w : Word} {s u : State} (h : push w s = some u) : OnlyChanges [.stack] s u := by
  obtain ⟨_, rfl⟩ := push_eq_some w s u h
  intro p hp
  cases p <;> simp_all [Part.same, State.reg, State.byte, State.pixel]

/-- A pop changes the stack only (R18). -/
theorem pop_onlyChanges {w : Word} {s u : State} (h : pop s = some (w, u)) : OnlyChanges [.stack] s u := by
  obtain ⟨_, hp⟩ := pop_eq_some s _ h
  obtain ⟨rfl, rfl⟩ := Prod.mk.inj hp
  intro p hp
  cases p <;> simp_all [Part.same, State.reg, State.byte, State.pixel]

/-- A clear changes the Display only (R97). -/
theorem clearDisplay_onlyChanges (s : State) : OnlyChanges [.display] s s.clearDisplay := by
  intro p hp
  cases p <;> simp_all [Part.same]

/-- Drawing a random byte changes the count of drawn bytes only (log 4). -/
theorem drawByte_onlyChanges (s : State) : OnlyChanges [.draws] s (drawByte s).2 := by
  intro p hp
  cases p <;> simp_all [Part.same, drawByte, State.reg, State.byte, State.pixel]

/-! Every instruction. -/

/-- The parts of the state an instruction may change (R11, R66). -/
def changedParts : Instr → List Part
  | .cls => [.display]
  | .jp _ | .seImm _ _ | .sneImm _ _ | .seReg _ _ | .sneReg _ _ => [.pc]
  | .call _ | .ret => [.pc, .stack, .runState, .fault]
  | .ldImm _ _ | .addImm _ _ | .ldReg _ _ | .orReg _ _ | .andReg _ _ | .xorReg _ _ => [.regs]
  | .addReg _ _ | .sub _ _ | .shr _ _ | .subn _ _ | .shl _ _ => [.regs]
  | .rnd _ _ => [.regs, .draws]
  | .ldI _ | .addI _ => [.i]
  | .drw _ _ _ => [.regs, .display, .runState, .fault]
  | .storeRegs _ => [.runState, .fault, .memory]
  | .loadRegs _ => [.runState, .fault, .regs]

/-- The frame of every instruction: it changes its `changedParts` only. -/
theorem exec_onlyChanges {i : Instr} {s t : State} (h : exec i s = .next t) : OnlyChanges (changedParts i) s t := by
  cases i
  case call nnn =>
    obtain rfl | ⟨u, hu, rfl⟩ := exec_call_cases h
    · exact (raise_onlyChanges _ s).mono (by simp [changedParts])
    · exact ((push_onlyChanges hu).mono (by simp [changedParts])).trans
        ((setPc_onlyChanges u _).mono (by simp [changedParts]))
  case ret =>
    obtain rfl | ⟨w, u, hu, rfl⟩ := exec_ret_cases h
    · exact (raise_onlyChanges _ s).mono (by simp [changedParts])
    · exact ((pop_onlyChanges hu).mono (by simp [changedParts])).trans
        ((setPc_onlyChanges u w).mono (by simp [changedParts]))
  all_goals obtain rfl := Host.Outcome.next.inj h
  case cls => exact clearDisplay_onlyChanges s
  case jp => exact setPc_onlyChanges s _
  case seImm | sneImm | seReg | sneReg => exact skipIf_onlyChanges _ s
  case ldImm | addImm | ldReg | orReg | andReg | xorReg => exact setReg_onlyChanges s _ _
  case addReg | sub | shr | subn | shl => exact writeResultAndFlag_onlyChanges _ _ _ s
  case ldI | addI => exact setI_onlyChanges s _
  case rnd =>
    exact ((drawByte_onlyChanges s).mono (by simp [changedParts])).trans
      ((setReg_onlyChanges _ _ _).mono (by simp [changedParts]))
  case drw =>
    exact ((setReg_onlyChanges s _ _).mono (by simp [changedParts])).trans
      ((drawRows_onlyChanges _ _ _ _ _ _).mono (by simp [changedParts]))
  case storeRegs => exact accessLoop_onlyChanges _ _ _ _ _ _ fun _ _ _ => storeRegs_onlyChanges _ _ _ _
  case loadRegs => exact accessLoop_onlyChanges _ _ _ _ _ _ fun _ _ _ => loadRegs_onlyChanges _ _ _ _

/-! The registers. -/

/-- A sprite starts on a column of the Display (R98). -/
theorem startColumn_lt (s : State) (x : RegIdx) : startColumn s x < 64 := Nat.mod_lt _ (by decide)

/-- A sprite starts on a row of the Display (R98). -/
theorem startRow_lt (s : State) (y : RegIdx) : startRow s y < 32 := Nat.mod_lt _ (by decide)

/-- The registers `V[0]` to `V[X]` by number (R48). -/
theorem mem_regsUpTo {k x : RegIdx} : k ∈ regsUpTo x ↔ k.toNat ≤ x.toNat := by
  simp only [regsUpTo, regCount, regOf, List.mem_map, List.mem_range]
  constructor
  · rintro ⟨j, hj, rfl⟩
    rw [BitVec.toNat_ofNat]
    exact (Nat.mod_le _ _).trans (by omega)
  · exact fun h => ⟨k.toNat, by omega, by simp⟩

/-- The row loop writes the flag register only (R98). -/
theorem drawRows_sameRegsBut (base x0 n row y : Nat) (s : State) (hx : x0 < 64) (hy : y < 32) :
    SameRegsBut [0xF] s (drawRows base x0 n row y s) := by
  intro k hk
  obtain ⟨hit, miss⟩ := drawRows_reg base x0 n row y s hx hy k
  by_cases hc : drawCollides base x0 n row y s
  · rw [hit hc, if_neg (by simpa using hk)]
  · exact miss hc

/-- `FX65` writes `V[0]` to `V[X]` only, whether or not it faults (R95). -/
theorem loadRegs_sameRegsBut (base : Nat) (x : RegIdx) (s : State) :
    SameRegsBut (regsUpTo x) s (accessLoop base (loadReg base) (regCount x) 0 s) := by
  intro k hk
  have hx : regCount x ≤ 16 := x.isLt
  have hk : ¬ k.toNat < regCount x := fun h => hk (mem_regsUpTo.2 (Nat.le_of_lt_succ h))
  rw [accessLoop_eq]
  split
  · rw [raise_reg, loadRegs_regs _ _ _ _ (by omega), if_neg (by omega)]
  · rw [loadRegs_regs _ _ _ _ (by omega), if_neg (by omega)]

/-- Every instruction writes its `writesRegs` only (R11, R13). -/
theorem exec_sameRegsBut {i : Instr} {s t : State} (h : exec i s = .next t) : SameRegsBut (writesRegs i) s t := by
  cases i
  case cls | ret | jp | call | seImm | sneImm | seReg | sneReg | ldI | addI | storeRegs =>
    exact fun k _ => exec_onlyChanges h .regs (by simp [changedParts]) k
  all_goals obtain rfl := Host.Outcome.next.inj h
  case ldImm | addImm | ldReg | orReg | andReg | xorReg => exact setReg_sameRegsBut s _ _
  case addReg | sub | shr | subn | shl => exact writeResultAndFlag_sameRegsBut _ _ _ s
  case rnd x nn => exact setReg_sameRegsBut (drawByte s).2 x _
  case drw x y n =>
    intro k hk
    rw [drawRows_sameRegsBut _ _ _ _ _ _ (startColumn_lt s x) (startRow_lt s y) k hk]
    exact setReg_sameRegsBut s _ _ k hk
  case loadRegs x => exact loadRegs_sameRegsBut _ x s

end Sys2Proof.Machine
end

section
/-! SUPPORT. An update of the state that no instruction notices: it changes nothing that an operation reads, and it
commutes with every operation that writes. Changes of the devices (spec/10_state.md R21, R24) are of this kind. -/

namespace Sys2Proof.Machine

/-- `g` changes nothing that fetch, gate and instructions read, and commutes with what they write. The count of drawn
bytes, which only `CXNN` reads, is left out: `g` may change it. -/
structure Unseen (g : State → State) : Prop where
  runState : ∀ s, (g s).runState = s.runState
  reg : ∀ s x, (g s).reg x = s.reg x
  i : ∀ s, (g s).i = s.i
  pc : ∀ s, (g s).pc = s.pc
  byte : ∀ s a, (g s).byte a = s.byte a
  pixel : ∀ s k, (g s).pixel k = s.pixel k
  setReg : ∀ s x b, (g s).setReg x b = g (s.setReg x b)
  setI : ∀ s w, (g s).setI w = g (s.setI w)
  setPc : ∀ s w, (g s).setPc w = g (s.setPc w)
  setByte : ∀ s a b, (g s).setByte a b = g (s.setByte a b)
  setPixel : ∀ s k b, (g s).setPixel k b = g (s.setPixel k b)
  clearDisplay : ∀ s, (g s).clearDisplay = g s.clearDisplay
  raise : ∀ s f, raise f (g s) = g (raise f s)
  push : ∀ s w, push w (g s) = (push w s).map g
  pop : ∀ s, pop (g s) = (pop s).map (Prod.map id g)

namespace Unseen

variable {g : State → State} (hg : Unseen g)
include hg

/-! The operations commute with `g`, the observations do not see it; the loops by induction on what remains. -/

theorem setFlag (s : State) (f : Byte) : (g s).setFlag f = g (s.setFlag f) := hg.setReg s _ f

theorem advance (s : State) : advance (g s) = g (advance s) := by
  simp only [Machine.advance, hg.pc, hg.setPc]

theorem skipIf (c : Bool) (s : State) : skipIf c (g s) = g (skipIf c s) := by
  cases c
  · rfl
  · simp only [Machine.skipIf, skip, if_true, hg.pc, hg.setPc]

theorem fetch (s : State) : fetch (g s) = fetch s := by
  simp only [Machine.fetch, hg.pc, hg.byte]

theorem startColumn (s : State) (x : RegIdx) : startColumn (g s) x = startColumn s x := by
  simp only [Machine.startColumn, hg.reg]

theorem startRow (s : State) (y : RegIdx) : startRow (g s) y = startRow s y := by
  simp only [Machine.startRow, hg.reg]

theorem effAddr (s : State) (k : Nat) : effAddr (g s) k = effAddr s k := by
  simp only [Machine.effAddr, hg.i]

theorem writeResultAndFlag (x : RegIdx) (r f : Byte) (s : State) :
    writeResultAndFlag x r f (g s) = g (writeResultAndFlag x r f s) := by
  simp only [writeResultAndFlag_eq, hg.setReg, hg.setFlag]

theorem accessLoop {act : Nat → State → State} (hact : ∀ k s, act k (g s) = g (act k s)) (base n k : Nat)
    (s : State) : accessLoop base act n k (g s) = g (accessLoop base act n k s) := by
  induction n generalizing k s with
  | zero => rfl
  | succ n ih =>
    simp only [Machine.accessLoop, hact, ih, hg.raise]
    split <;> rfl

theorem blitCell (bit : Bool) (k : Nat) (s : State) : blitCell bit k (g s) = g (blitCell bit k s) := by
  simp only [Machine.blitCell, hg.pixel]
  split <;> simp only [hg.setFlag, hg.setPixel]

theorem drawBits (b : Byte) (y n c x : Nat) (s : State) : drawBits b y n c x (g s) = g (drawBits b y n c x s) := by
  induction n generalizing c x s with
  | zero => rfl
  | succ n ih =>
    simp only [Machine.drawBits, hg.blitCell, ih]
    split <;> rfl

theorem drawRows (base x0 n row y : Nat) (s : State) :
    drawRows base x0 n row y (g s) = g (drawRows base x0 n row y s) := by
  induction n generalizing row y s with
  | zero => rfl
  | succ n ih =>
    simp only [Machine.drawRows, hg.raise, hg.byte, hg.drawBits, ih]
    split
    · rfl
    · split <;> rfl

/-- Every instruction but `CXNN` does the same after an unseen update (R90). -/
theorem exec {i : Instr} {s t : State} (hi : ∀ x nn, i ≠ .rnd x nn) (h : exec i s = .next t) :
    exec i (g s) = .next (g t) := by
  cases i
  case rnd x nn => exact absurd rfl (hi x nn)
  case call nnn =>
    simp only [Machine.exec, execCall, hg.pc, hg.push] at h ⊢
    cases hp : Machine.push s.pc s <;> rw [hp] at h <;> obtain rfl := Host.Outcome.next.inj h
    · simp only [Option.map_none, hg.raise]
    · simp only [Option.map_some, hg.setPc]
  case ret =>
    simp only [Machine.exec, execRet, hg.pop] at h ⊢
    cases hp : Machine.pop s <;> rw [hp] at h <;> obtain rfl := Host.Outcome.next.inj h
    · simp only [Option.map_none, hg.raise]
    · simp only [Option.map_some, Prod.map, id, hg.setPc]
  all_goals
    obtain rfl := Host.Outcome.next.inj h
    refine congrArg Host.Outcome.next ?_
  case cls => exact hg.clearDisplay s
  case jp => exact hg.setPc s _
  case seImm | sneImm | seReg | sneReg => simp only [hg.reg, hg.skipIf]
  case ldImm | addImm | ldReg | orReg | andReg | xorReg => simp only [hg.reg, hg.setReg]
  case addReg | sub | shr | subn | shl => simp only [hg.reg, hg.writeResultAndFlag]
  case ldI | addI => simp only [hg.i, hg.reg, hg.setI]
  case drw => simp only [hg.effAddr, hg.startColumn, hg.startRow, hg.setFlag, hg.drawRows]
  case storeRegs =>
    rw [hg.effAddr]
    exact hg.accessLoop (fun k s => by simp only [storeReg, hg.reg, hg.setByte]) _ _ _ s
  case loadRegs =>
    rw [hg.effAddr]
    exact hg.accessLoop (fun k s => by simp only [loadReg, hg.byte, hg.setReg]) _ _ _ s

end Unseen

end Sys2Proof.Machine
end

section
/-! SUPPORT. The step, one equation per way it ends in a next state (spec/40_step_cycle.md R60, R61, R64), and the step
after an update that no instruction notices. -/

namespace Sys2Proof.Machine

/-- A step in `Paused` changes nothing (R60). -/
theorem step_of_paused {s : State} (h : s.runState = .paused) : step s = .next s := by
  simp only [step, h]

/-- A step whose fetch fails takes the fetch fault (R61). -/
theorem step_of_fetch_none {s : State} (h : s.runState = .running) (hf : fetch s = none) :
    step s = .next (fetchFault s) := by
  simp only [step, h, hf]

/-- A step on a word that decodes runs its instruction on the advanced state (R62, R64). -/
theorem step_of_decode_ok {s : State} {w : Word} {i : Instr} (h : s.runState = .running) (hf : fetch s = some w)
    (hd : decode w = .ok i) : step s = exec i (advance s) := by
  simp only [step, h, hf, hd]

/-- A step on a word that does not decode takes `UnimplementedOpcode` (R64). -/
theorem step_of_decode_error {s : State} {w : Word} {e : DecodeError} (h : s.runState = .running)
    (hf : fetch s = some w) (hd : decode w = .error e) : step s = .next (illegal w s) := by
  simp only [step, h, hf, hd]

/-- A step does the same after an unseen update, if `CXNN` does. -/
theorem Unseen.step {g : State → State} (hg : Unseen g)
    (hrnd : ∀ x nn s t, Machine.exec (.rnd x nn) s = .next t → Machine.exec (.rnd x nn) (g s) = .next (g t))
    {s t : State} (h : step s = .next t) : step (g s) = .next (g t) := by
  obtain ⟨hr, rfl⟩ | ⟨hr, hf, rfl⟩ | ⟨hr, w, hf, hd, rfl⟩ | ⟨hr, w, i, hf, hd, hx⟩ := step_cases s t h
  all_goals rw [← hg.runState] at hr
  · exact step_of_paused hr
  · rw [step_of_fetch_none hr ((hg.fetch s).trans hf), fetchFault, hg.pc, hg.raise, fetchFault]
  · rw [step_of_decode_error hr ((hg.fetch s).trans hf) hd, illegal, hg.advance, hg.raise, illegal]
  · rw [step_of_decode_ok hr ((hg.fetch s).trans hf) hd, hg.advance]
    by_cases hi : ∃ x nn, i = .rnd x nn
    · obtain ⟨x, nn, rfl⟩ := hi
      exact hrnd x nn _ t hx
    · exact hg.exec (fun x nn hi' => hi ⟨x, nn, hi'⟩) hx

/-- The state with other timer counters and other keys (R21, R24). -/
def State.withDevices (d e : Byte) (k : Vector Bool 16) (s : State) : State :=
  { s with delay := d, sound := e, keys := k }

/-- Other counters and keys are an unseen update (R21, R24). -/
theorem unseen_withDevices (d e : Byte) (k : Vector Bool 16) : Unseen (State.withDevices d e k) where
  runState _ := rfl
  reg _ _ := rfl
  i _ := rfl
  pc _ := rfl
  byte _ _ := rfl
  pixel _ _ := rfl
  setReg _ _ _ := rfl
  setI _ _ := rfl
  setPc _ _ := rfl
  setByte _ _ _ := rfl
  setPixel _ _ _ := rfl
  clearDisplay _ := rfl
  raise _ _ := rfl
  push s w := by by_cases h : s.sp.val < 12 <;> simp [push, State.withDevices, h]
  pop s := by by_cases h : 0 < s.sp.val <;> simp [pop, State.withDevices, h]

/-- `CXNN` under the same random byte does not notice the counters and keys (R90; log 4). -/
theorem exec_rnd_withDevices (d e : Byte) (k : Vector Bool 16) (x : RegIdx) (nn : Byte) (s t : State)
    (h : exec (.rnd x nn) s = .next t) :
    exec (.rnd x nn) (s.withDevices d e k) = .next (t.withDevices d e k) := by
  obtain rfl := Host.Outcome.next.inj h
  rfl

/-- Settles O22: other counters and keys are an unseen update, for `CXNN` too. -/
theorem timersAndKeysAreInvisible : Obligations.TimersAndKeysAreInvisible :=
  fun _ _ d e k h => (unseen_withDevices d e k).step (exec_rnd_withDevices d e k) h

end Sys2Proof.Machine
end

section
/-! SUPPORT. The invariant of spec/10_state.md R16, R138 and spec/60_exceptions.md R102: what one instruction does to
memory's form, to `pc`, to the return addresses and to the status, then every step and every command of the host. -/

namespace Sys2Proof.Machine

/-! Memory stays canonical (R28). -/

/-- An access loop keeps what each access and a fault keep (R36). -/
theorem accessLoop_keeps {α : Type} (f : State → α) {act : Nat → State → State} (hact : ∀ k s, f (act k s) = f s)
    (hraise : ∀ e s, f (raise e s) = f s) (base n k : Nat) (s : State) : f (accessLoop base act n k s) = f s := by
  rw [accessLoop_eq]
  split
  · rw [hraise, iterAccess_keeps f act hact]
  · exact iterAccess_keeps f act hact n k s

/-- `FX55` keeps memory canonical: it stores below 4096 only (R36, R94). -/
theorem accessLoop_storeReg_wf (base n : Nat) (s : State) (hm : s.mem.wf) :
    (accessLoop base (storeReg base) n 0 s).mem.wf := by
  rw [accessLoop_eq]
  split
  · by_cases hb : base ≤ 4096
    · exact storeRegs_wf base _ 0 s hm (by omega)
    · rw [show 4096 - (base + 0) = 0 by omega]
      exact hm
  · by_cases hn : n = 0
    · subst hn
      exact hm
    · exact storeRegs_wf base n 0 s hm (by omega)

/-- Every instruction keeps memory canonical (R28). -/
theorem exec_keeps_wf {i : Instr} {s t : State} (h : exec i s = .next t) (hm : s.mem.wf) : t.mem.wf := by
  cases i
  case call nnn =>
    obtain rfl | ⟨u, hu, rfl⟩ := exec_call_cases h
    · exact hm
    · obtain ⟨_, rfl⟩ := push_eq_some _ _ _ hu
      exact hm
  case ret =>
    obtain rfl | ⟨w, u, hu, rfl⟩ := exec_ret_cases h
    · exact hm
    · obtain ⟨_, hp⟩ := pop_eq_some _ _ hu
      obtain ⟨rfl, rfl⟩ := Prod.mk.inj hp
      exact hm
  all_goals obtain rfl := Host.Outcome.next.inj h
  case storeRegs x => exact accessLoop_storeReg_wf _ _ s hm
  case loadRegs x =>
    rw [accessLoop_keeps State.mem (act := loadReg _) (fun _ _ => rfl) fun _ _ => rfl]
    exact hm
  case drw x y n =>
    rw [drawRows_keeps State.mem (fun _ _ => rfl) (fun _ _ _ => rfl) fun _ _ => rfl]
    exact hm
  case seImm | sneImm | seReg | sneReg => unfold skipIf; split <;> exact hm
  all_goals exact hm

/-! The return addresses and `pc` (R16). -/

/-- Every valid return address is at most 4096 (R16). -/
def State.ReturnsBounded (s : State) : Prop := ∀ k (h : k < 12), k < s.sp.val → (s.stack[k]).toNat ≤ 4096

/-- A push of an address of at most 4096 keeps the return addresses in range. -/
theorem push_returnsBounded {w : Word} {s u : State} (hs : s.ReturnsBounded) (hw : w.toNat ≤ 4096)
    (h : push w s = some u) : u.ReturnsBounded := by
  obtain ⟨hsp, rfl⟩ := push_eq_some w s u h
  intro k hk hlt
  by_cases hkn : s.sp.val = k
  · simpa [hkn] using hw
  · simpa [Vector.getElem_set, hkn] using hs k hk (by simp only at hlt; omega)

/-- A pop gives a valid return address and leaves the others. -/
theorem pop_returnsBounded {w : Word} {s u : State} (hs : s.ReturnsBounded) (h : pop s = some (w, u)) :
    w.toNat ≤ 4096 ∧ u.ReturnsBounded := by
  obtain ⟨hsp, hp⟩ := pop_eq_some s _ h
  obtain ⟨rfl, rfl⟩ := Prod.mk.inj hp
  have := s.sp.isLt
  exact ⟨hs _ (by omega) (by omega), fun k hk hlt => hs k hk (by simp only at hlt; omega)⟩

/-- From an advanced `pc` of at most 4096, every instruction keeps the return addresses in range (R16). -/
theorem exec_returnsBounded {i : Instr} {s t : State} (h : exec i s = .next t) (hpc : s.pc.toNat ≤ 4096)
    (hs : s.ReturnsBounded) : t.ReturnsBounded := by
  by_cases hst : Part.stack ∈ changedParts i
  · cases i
    case call nnn =>
      obtain rfl | ⟨u, hu, rfl⟩ := exec_call_cases h
      · exact hs
      · exact push_returnsBounded (u := u) hs hpc hu
    case ret =>
      obtain rfl | ⟨w, u, hu, rfl⟩ := exec_ret_cases h
      · exact hs
      · exact (pop_returnsBounded hs hu).2
    all_goals simp [changedParts] at hst
  · obtain ⟨hsp, hsame⟩ := exec_onlyChanges h .stack hst
    intro k hk hlt
    rw [hsp] at hlt
    rw [hsame k hk hlt]
    exact hs k hk hlt

/-- A 12-bit address is below 4096 (R48). -/
theorem zextAddr_toNat_lt (nnn : Addr) : (zextAddr nnn).toNat < 4096 := by
  rw [zextAddr, BitVec.toNat_setWidth]
  omega

/-- From an advanced `pc` of at most 4096, a skip reaches at most 4098 (R16, R67). -/
theorem skipIf_pc_le (c : Bool) {s : State} (hpc : s.pc.toNat ≤ 4096) : (skipIf c s).pc.toNat ≤ 4098 := by
  rw [skipIf_pc]
  split
  · simp only [BitVec.toNat_add, BitVec.reduceToNat]
    omega
  · omega

/-- From an advanced `pc` of at most 4096, every instruction leaves `pc` at most 4098 (R16). -/
theorem exec_pc_le {i : Instr} {s t : State} (h : exec i s = .next t) (hpc : s.pc.toNat ≤ 4096)
    (hs : s.ReturnsBounded) : t.pc.toNat ≤ 4098 := by
  by_cases hp : Part.pc ∈ changedParts i
  · cases i
    case call nnn =>
      obtain rfl | ⟨u, hu, rfl⟩ := exec_call_cases h
      · exact hpc.trans (by decide)
      · exact (zextAddr_toNat_lt nnn).le.trans (by decide)
    case ret =>
      obtain rfl | ⟨w, u, hu, rfl⟩ := exec_ret_cases h
      · exact hpc.trans (by decide)
      · exact (pop_returnsBounded hs hu).1.trans (by decide)
    case jp nnn =>
      obtain rfl := Host.Outcome.next.inj h
      exact (zextAddr_toNat_lt nnn).le.trans (by decide)
    case seImm | sneImm | seReg | sneReg =>
      obtain rfl := Host.Outcome.next.inj h
      exact skipIf_pc_le _ hpc
    all_goals simp [changedParts] at hp
  · have hsame : t.pc = s.pc := exec_onlyChanges h .pc hp
    rw [hsame]
    omega

/-! The status (R66, R102, R138). -/

/-- The status after an instruction: as before, or a fault is taken whose payload is in range (R66, R102). -/
def StatusStep (s t : State) : Prop :=
  (t.runState = s.runState ∧ t.fault = s.fault) ∨ ∃ f, Took f t ∧ payloadOk (some f)

/-- A transfer faults, if at all, with the first of its addresses above 4095, which is at most 65535 (R36, R102). -/
theorem accessLoop_statusStep {base n : Nat} {act : Nat → State → State} (hb : base ≤ 65535)
    (hr : ∀ k s, (act k s).runState = s.runState) (hf : ∀ k s, (act k s).fault = s.fault) (s : State) :
    StatusStep s (accessLoop base act n 0 s) := by
  by_cases hn : 4096 - (base + 0) < n
  · rw [accessLoop_past _ _ _ _ _ hn]
    refine .inr ⟨_, raise_took _ _, ?_⟩
    simp only [payloadOk]
    omega
  · rw [accessLoop_inBounds _ _ _ _ _ (by omega)]
    exact .inl ⟨iterAccess_keeps State.runState act hr n 0 s, iterAccess_keeps State.fault act hf n 0 s⟩

/-- A draw faults, if at all, with the first of its addresses above 4095, which is at most 65535 (R98, R102). -/
theorem drawRows_statusStep {base n : Nat} (x0 y : Nat) (s : State) (hb : base ≤ 65535) (hy : y < 32) :
    StatusStep s (drawRows base x0 n 0 y s) := by
  obtain ⟨hdone, hpast⟩ := drawRows_status base x0 n 0 y s hy
  by_cases hlt : rowsDrawn n y (base + 0) < min n (32 - y)
  · refine .inr ⟨_, hpast hlt, ?_⟩
    simp only [rowsDrawn, payloadOk] at hlt ⊢
    omega
  · exact .inl (hdone (by simp only [rowsDrawn] at hlt ⊢; omega))

/-- Every instruction leaves the status as it is or takes a fault whose payload is in range (R66, R102). -/
theorem exec_statusStep {i : Instr} {s t : State} (h : exec i s = .next t) : StatusStep s t := by
  by_cases hst : Part.runState ∈ changedParts i ∨ Part.fault ∈ changedParts i
  · have hI : effAddr s 0 ≤ 65535 := Nat.le_of_lt_succ s.i.isLt
    cases i
    case call nnn =>
      obtain rfl | ⟨u, hu, rfl⟩ := exec_call_cases h
      · exact .inr ⟨_, raise_took _ s, trivial⟩
      · exact .inl ⟨push_onlyChanges hu .runState (by simp), push_onlyChanges hu .fault (by simp)⟩
    case ret =>
      obtain rfl | ⟨w, u, hu, rfl⟩ := exec_ret_cases h
      · exact .inr ⟨_, raise_took _ s, trivial⟩
      · exact .inl ⟨pop_onlyChanges hu .runState (by simp), pop_onlyChanges hu .fault (by simp)⟩
    case drw x y n =>
      obtain rfl := Host.Outcome.next.inj h
      exact drawRows_statusStep _ _ (s.setFlag 0) hI (startRow_lt s y)
    case storeRegs x =>
      obtain rfl := Host.Outcome.next.inj h
      exact accessLoop_statusStep (act := storeReg _) hI (fun _ _ => rfl) (fun _ _ => rfl) s
    case loadRegs x =>
      obtain rfl := Host.Outcome.next.inj h
      exact accessLoop_statusStep (act := loadReg _) hI (fun _ _ => rfl) (fun _ _ => rfl) s
    all_goals simp [changedParts] at hst
  · obtain ⟨hr, hf⟩ := not_or.1 hst
    exact .inl ⟨exec_onlyChanges h .runState hr, exec_onlyChanges h .fault hf⟩

/-! The step and the commands. -/

/-- Outside `Quit` the latch is empty, in a state that meets the invariant (R138). -/
theorem State.Inv.fault_eq_none {s : State} (hs : s.Inv) (h : s.runState ≠ .quit) : s.fault = none :=
  Decidable.byContradiction fun hf => h (hs.latch.1 hf)

/-- A state whose latch is as `StatusStep` leaves it, from a running state without a fault, has its latch in order. -/
theorem StatusStep.latch_and_payload {s t : State} (h : StatusStep s t) (hr : s.runState = .running)
    (hf : s.fault = none) : (t.fault ≠ none ↔ t.runState = .quit) ∧ payloadOk t.fault := by
  obtain ⟨htr, htf⟩ | ⟨f, ⟨htr, htf⟩, hok⟩ := h
  · rw [htr, htf, hr, hf]
    simp [payloadOk]
  · rw [htr, htf]
    exact ⟨by simp, hok⟩

/-- A fault taken with its payload in range keeps the invariant (R66, R102). -/
theorem State.Inv.raise {s : State} {f : FaultValue} (hs : s.Inv) (hf : payloadOk (some f)) : (raise f s).Inv :=
  ⟨hs.memory, hs.pcBound, hs.returns, by simp, hf⟩

/-- After a successful fetch the advanced `pc` is at most 4096 (R16). -/
theorem advance_pc_le {s : State} {w : Word} (h : fetch s = some w) : (advance s).pc.toNat ≤ 4096 := by
  have hpc := ((fetch_eq_some s w).1 h).1
  rw [advance_pc_toNat s hpc]
  omega

/-- The advance after a successful fetch keeps the invariant (R62). -/
theorem State.Inv.advance {s : State} {w : Word} (hs : s.Inv) (h : fetch s = some w) : (advance s).Inv :=
  ⟨hs.memory, (advance_pc_le h).trans (by decide), hs.returns, hs.latch, hs.payload⟩

/-- An instruction that a step runs keeps the invariant. -/
theorem exec_keeps_inv {i : Instr} {s t : State} (hs : s.Inv) (hr : s.runState = .running) (hpc : s.pc.toNat ≤ 4096)
    (h : exec i s = .next t) : t.Inv := by
  have hf : s.fault = none := hs.fault_eq_none (by simp [hr])
  obtain ⟨hlatch, hpayload⟩ := (exec_statusStep h).latch_and_payload hr hf
  exact ⟨exec_keeps_wf h hs.memory, exec_pc_le h hpc hs.returns, exec_returnsBounded h hpc hs.returns, hlatch, hpayload⟩

/-- Every step keeps the invariant (R59). -/
theorem step_keeps_inv {s t : State} (hs : s.Inv) (h : step s = .next t) : t.Inv := by
  obtain ⟨-, rfl⟩ | ⟨-, hf, rfl⟩ | ⟨-, w, hf, hd, rfl⟩ | ⟨hr, w, i, hf, -, hx⟩ := step_cases s t h
  · exact hs
  · have hlow := (fetch_eq_none s).1 hf
    have hhigh := hs.pcBound
    exact hs.raise (show 4095 ≤ s.pc.toNat ∧ s.pc.toNat ≤ 65550 by omega)
  · exact (hs.advance hf).raise hd
  · exact exec_keeps_inv (hs.advance hf) hr (advance_pc_le hf) hx

/-- Settles O12, by the four ways a step can end in a next state (`step_keeps_inv`). -/
theorem stepKeepsInvariant : Obligations.StepKeepsInvariant := fun _ _ hs h => step_keeps_inv hs h

/-- The invariant does not speak of the count of drawn bytes, so it holds of a reset from any state (R123). -/
theorem resetMachine_inv (s : State) : (resetMachine s).Inv :=
  ⟨⟨.nil, by simp [resetMachine, State.reset]⟩, by simp [resetMachine, State.reset],
    fun k _ h => absurd h (Nat.not_lt_zero k), by simp [resetMachine, State.reset], trivial⟩

/-- Settles O11: the reset state is what `reset` leaves of itself. -/
theorem resetMeetsInvariant : Obligations.ResetMeetsInvariant := resetMachine_inv State.reset

/-- A `load` that succeeds keeps the invariant: both copies lie inside the address space (R124, R125). -/
theorem load_keeps_inv {font program : List Byte} {s t : State} (hs : s.Inv) (h : load font program s = .loaded t) :
    t.Inv := by
  simp only [load, progBase_eq, memSize_eq, fontBase_eq] at h
  split at h
  · simp at h
  · split at h
    · simp at h
    · obtain rfl := LoadResult.loaded.inj h
      have hfont := Memory.writeBytes_wf font s.mem 0 hs.memory (by simp only [memSize_eq]; omega)
      have hprog := Memory.writeBytes_wf program _ 512 hfont (by simp only [memSize_eq]; omega)
      exact ⟨hprog, by simp, hs.returns, hs.latch, hs.payload⟩

/-- `pause` keeps the invariant: it never enters or leaves `Quit` (R113). -/
theorem pause_keeps_inv {s : State} (hs : s.Inv) : (pause s).Inv := by
  unfold pause
  split
  next hr => exact ⟨hs.memory, hs.pcBound, hs.returns, by simp [hs.fault_eq_none (by simp [hr])], hs.payload⟩
  all_goals exact hs

/-- `resume` keeps the invariant: it never enters or leaves `Quit` (R114). -/
theorem resume_keeps_inv {s : State} (hs : s.Inv) : (resume s).Inv := by
  unfold resume
  split
  next => exact hs
  next hr => exact ⟨hs.memory, hs.pcBound, hs.returns, by simp [hs.fault_eq_none (by simp [hr])], hs.payload⟩
  next => exact hs

/-- Every command keeps the invariant (R112). -/
theorem runCommand_keeps_inv {c : Command} {s t : State} {r : Reply} (hs : s.Inv)
    (h : runCommand c s = .next (t, r)) : t.Inv := by
  cases c <;> simp only [runCommand] at h
  case load font program =>
    split at h <;> obtain ⟨rfl, -⟩ := Prod.mk.inj (Host.Outcome.next.inj h)
    next hl => exact load_keeps_inv hs hl
    all_goals exact hs
  case step =>
    split at h
    next u hu =>
      obtain ⟨rfl, -⟩ := Prod.mk.inj (Host.Outcome.next.inj h)
      exact step_keeps_inv hs hu
    all_goals simp at h
  all_goals obtain ⟨rfl, -⟩ := Prod.mk.inj (Host.Outcome.next.inj h)
  case reset => exact resetMachine_inv s
  case pause => exact pause_keeps_inv hs
  case resume => exact resume_keeps_inv hs
  case tick | setKeys => exact ⟨hs.memory, hs.pcBound, hs.returns, hs.latch, hs.payload⟩

/-- Every reachable state meets the invariant (R136). -/
theorem Reachable.inv {s : State} (h : Reachable s) : s.Inv := by
  induction h with
  | reset => exact resetMeetsInvariant
  | command c s t r _ hc ih => exact runCommand_keeps_inv ih hc

/-- Settles O14, from the invariant of every reachable state. -/
theorem reachableStatesMeetInvariant : Obligations.ReachableStatesMeetInvariant :=
  fun _ h => ⟨h.inv.pcBound, h.inv.latch, h.inv.memory⟩

end Sys2Proof.Machine
end

section
/-! SUPPORT. The whole-machine frames of spec/10_state.md (R11, R14, R17, R20), the flag (R13) and the reset state
(R27). -/

namespace Sys2Proof.Machine

/-- Settles O16, from the register frame of every instruction. -/
theorem instructionsWriteOnlyTheirRegisters : Obligations.InstructionsWriteOnlyTheirRegisters :=
  fun _ _ _ h => exec_sameRegsBut h

/-- Settles O17: the stack is among the changed parts of a call and a return only. -/
theorem onlyCallAndReturnChangeTheStack : Obligations.OnlyCallAndReturnChangeTheStack := by
  intro i s t h hcall hret
  have hstack : Part.stack ∉ changedParts i := by cases i <;> simp_all [changedParts]
  exact exec_onlyChanges h .stack hstack

/-- Settles O18: the Display is among the changed parts of a clear and a draw only. -/
theorem onlyClearAndDrawChangeTheDisplay : Obligations.OnlyClearAndDrawChangeTheDisplay := by
  intro i s t h hcls hdrw
  have hdisplay : Part.display ∉ changedParts i := by cases i <;> simp_all [changedParts]
  exact exec_onlyChanges h .display hdisplay

/-- Settles O20: `I` is among the changed parts of `ANNN` and `FX1E` only. -/
theorem onlyIndexInstructionsChangeI : Obligations.OnlyIndexInstructionsChangeI := by
  intro i s t h hldI haddI
  have hi : Part.i ∉ changedParts i := by cases i <;> simp_all [changedParts]
  exact exec_onlyChanges h .i hi

/-- The flag register after the result and the flag are written holds the flag, also for `X = 0xF` (R78, D10; log 5). -/
theorem writeResultAndFlag_flagReg (x : RegIdx) (r f : Byte) (s : State) :
    (writeResultAndFlag x r f s).reg 0xF = f := by
  rw [writeResultAndFlag_eq, State.setFlag_reg, if_pos rfl]

/-- With a flag byte as the flag, it is 0 or 1 (R88). -/
theorem writeResultAndFlag_zero_or_one (x : RegIdx) (r : Byte) (b : Bool) (s : State) :
    (writeResultAndFlag x r (flagByte b) s).reg 0xF = 0 ∨ (writeResultAndFlag x r (flagByte b) s).reg 0xF = 1 := by
  rw [writeResultAndFlag_flagReg]
  exact flagByte_zero_or_one b

/-- A draw from flag 0 leaves flag 0 or 1, whether or not it faults (R98). -/
theorem drawRows_flagReg {base x0 n row y : Nat} {s : State} (hx : x0 < 64) (hy : y < 32) (hs : s.reg 0xF = 0) :
    (drawRows base x0 n row y s).reg 0xF = 0 ∨ (drawRows base x0 n row y s).reg 0xF = 1 := by
  obtain ⟨hit, miss⟩ := drawRows_reg base x0 n row y s hx hy 0xF
  by_cases hc : drawCollides base x0 n row y s
  · exact .inr ((hit hc).trans (if_pos rfl))
  · exact .inl ((miss hc).trans hs)

/-- Settles O38: the five arithmetic instructions write a flag byte last, the draw starts at flag 0 and sets it to 1. -/
theorem flagIsZeroOrOne : Obligations.FlagIsZeroOrOne := by
  intro x y n i s t hi h
  simp only [List.mem_cons, List.not_mem_nil, or_false] at hi
  obtain rfl | rfl | rfl | rfl | rfl | rfl := hi <;> obtain rfl := Host.Outcome.next.inj h
  iterate 5 exact writeResultAndFlag_zero_or_one _ _ _ _
  exact drawRows_flagReg (startColumn_lt s x) (startRow_lt s y) (by simp)

/-- Settles O10, by the value of each field of the reset state. -/
theorem resetState : Obligations.ResetState := by
  refine ⟨rfl, rfl, rfl, rfl, fun x => ?_, rfl, fun _ => rfl, Screen.cell_blank, rfl, rfl, fun k hk => ?_⟩
  · simp [State.reset, State.reg]
  · simp [State.reset]

end Sys2Proof.Machine
end

section
/-! SUPPORT. Memory as the fetch sees it (spec/20_memory.md R31, R41, R43, R44): the one instruction that writes it, and
the words that `FX55` and `load` leave for the fetch. -/

namespace Sys2Proof.Machine

/-- Settles O19: memory is among the changed parts of `FX55` only. -/
theorem onlyStoreChangesMemory : Obligations.OnlyStoreChangesMemory := by
  intro i s t h hstore
  have hmemory : Part.memory ∉ changedParts i := by cases i <;> simp_all [changedParts]
  exact exec_onlyChanges h .memory hmemory

/-- A fetch at an address inside memory gives the two bytes there, big-endian (R31, R61). -/
theorem fetch_setPc (s : State) {p : Word} (hp : p.toNat ≤ 4094) :
    fetch (s.setPc p) = some (wordOfBytes (s.byte p.toNat) (s.byte (p.toNat + 1))) :=
  (fetch_eq_some _ _).2 ⟨hp, rfl⟩

/-! What `FX55` stores. -/

/-- `FX55` whose last address lies in memory makes all its stores (R93, R94). -/
theorem exec_storeRegs_inBounds {x : RegIdx} {s : State} (hx : effAddr s x.toNat ≤ 4095) :
    exec (.storeRegs x) s = .next (iterAccess (storeReg (effAddr s 0)) (regCount x) 0 s) := by
  simp only [effAddr] at hx
  simp only [exec, execStoreRegs]
  rw [accessLoop_inBounds _ _ _ _ _ (by simp only [effAddr, regCount]; omega)]

/-- `FX55` whose last address lies in memory leaves `V[k]` at `I + k` for `k` up to `X` (R94). -/
theorem storeRegs_byte_effAddr {x : RegIdx} {s : State} {k : Nat} (hm : s.mem.wf) (hx : effAddr s x.toNat ≤ 4095)
    (hk : k ≤ x.toNat) :
    (iterAccess (storeReg (effAddr s 0)) (regCount x) 0 s).byte (effAddr s k) = s.reg (regOf k) := by
  simp only [effAddr] at hx
  rw [storeRegs_bytes _ _ _ s hm (by simp only [effAddr, regCount]; omega),
    if_pos (by simp only [effAddr, regCount]; omega)]
  simp [effAddr]

/-- Settles O47: the two bytes the fetch reads are those `FX55` has stored. -/
theorem storedWordIsFetched : Obligations.StoredWordIsFetched := by
  intro x s k p hm hx hk hp
  have hnext : p.toNat + 1 = effAddr s (k + 1) := by rw [hp]; rfl
  have hbound : p.toNat ≤ 4094 := by simp only [effAddr] at hp hx; omega
  refine ⟨_, exec_storeRegs_inBounds hx, ?_⟩
  rw [fetch_setPc _ hbound, hnext, hp, storeRegs_byte_effAddr hm hx hk.le, storeRegs_byte_effAddr hm hx hk]

/-! What `load` copies. -/

/-- A `load` that succeeds: both arguments fit, the two copies are made and `pc` is 0x200 (R124, R125). -/
theorem load_loaded {font program : List Byte} {s t : State} (h : load font program s = .loaded t) :
    font.length ≤ 512 ∧ 512 + program.length ≤ 4096 ∧
      t = { s with mem := Memory.writeBytes (Memory.writeBytes s.mem 0 font) 512 program, pc := 512 } := by
  simp only [load, progBase_eq, memSize_eq, fontBase_eq] at h
  split at h
  · simp at h
  · split at h
    · simp at h
    · exact ⟨by omega, by omega, (LoadResult.loaded.inj h).symm⟩

/-- A byte of a loaded program is read at its place from 0x200 on (R125). -/
theorem load_program_byte {font program : List Byte} {s t : State} {j : Nat} {b : Byte} (hm : s.mem.wf)
    (h : load font program s = .loaded t) (hb : program[j]? = some b) : t.byte (512 + j) = b := by
  obtain ⟨hfont, -, rfl⟩ := load_loaded h
  obtain ⟨hj, hget⟩ := List.getElem?_eq_some_iff.1 hb
  have hfontwf := Memory.writeBytes_wf font s.mem 0 hm (by simp only [memSize_eq]; omega)
  rw [State.byte, Memory.read_writeBytes _ _ _ hfontwf.1, dif_pos ⟨by omega, by omega⟩]
  simpa using hget

/-- The bytes of word `k` of a program of words stand at places `2 * k` and `2 * k + 1`, the high byte first (R44). -/
theorem bytesOfWords_getElem? (words : List Word) (k : Nat) :
    (words.flatMap bytesOfWord)[2 * k]? = words[k]?.map hiByte ∧
      (words.flatMap bytesOfWord)[2 * k + 1]? = words[k]?.map loByte := by
  induction words generalizing k with
  | nil => simp
  | cons w words ih =>
    cases k with
    | zero => exact ⟨rfl, rfl⟩
    | succ k => simpa [bytesOfWord, Nat.mul_succ] using ih k

/-- The two bytes of a word as numbers: `v >> 8`, then `v & 0xFF` (R44). -/
theorem bytesOfWord_toNat (v : Word) : (bytesOfWord v).map BitVec.toNat = [v.toNat >>> 8, v.toNat &&& 0xFF] := by
  have hlow : v.toNat &&& 0xFF = v.toNat % 256 := Nat.and_two_pow_sub_one_eq_mod v.toNat 8
  simp [bytesOfWord, hiByte_toNat, loByte_toNat, Nat.shiftRight_eq_div_pow, hlow]

/-- Settles O57: the two bytes of word `k` are loaded at `0x200 + 2 * k`, and put together they give the word again. -/
theorem loadedProgramIsFetched : Obligations.LoadedProgramIsFetched := by
  refine ⟨bytesOfWord_toNat, fun font words s t hm hload k hk p hp => ?_⟩
  obtain ⟨-, hlen, -⟩ := load_loaded hload
  obtain ⟨hhi, hlo⟩ := bytesOfWords_getElem? words k
  rw [List.getElem?_eq_getElem hk, Option.map_some] at hhi hlo
  obtain ⟨hplace, -⟩ := List.getElem?_eq_some_iff.1 hlo
  rw [fetch_setPc t (by omega), hp, load_program_byte hm hload hhi, Nat.add_assoc, load_program_byte hm hload hlo,
    wordOfBytes_bytes]

end Sys2Proof.Machine
end

section
/-! SUPPORT. Decoder and encoder are inverse to each other, and the rows of the opcode map pick out the words of their
instructions (spec/30_encoding.md R46 to R55). -/

namespace Sys2Proof

/-! Decoding an encoded instruction. -/

/-- The decoder reads an instruction back from its word (R49, R50). -/
theorem decode_encode (i : Instr) : decode (encode i) = .ok i := by
  cases i with
  | cls | ret => rfl
  | jp | call | ldI | seImm | sneImm | ldImm | addImm | rnd | seReg | sneReg | drw => simp [encode, decode]
  | ldReg | orReg | andReg | xorReg | addReg | sub | shr | subn | shl => simp [encode, decode, decodeGroup8]
  | addI | storeRegs | loadRegs => simp [encode, decode, decodeGroupF]

/-- Settles O1: the two bytes put together are the word again, and the word decodes to its instruction. -/
theorem decodeOfEncode : Obligations.DecodeOfEncode := by
  intro i _
  simp only [bytesOfWord, decodeBytes, wordOfBytes_bytes, decode_encode]

/-! Encoding a decoded word. A format with its constants in place gives the word back. -/

/-- A word of format NNN is made of its high nibble and `NNN` (R47). -/
theorem encodeNnn_of_opField {w : Word} {op : Nibble} (hop : opField w = op) : encodeNnn op (nnnField w) = w :=
  hop ▸ encodeNnn_fields w

/-- A word of format XNN is made of its high nibble, `X` and `NN` (R47). -/
theorem encodeXnn_of_opField {w : Word} {op : Nibble} (hop : opField w = op) :
    encodeXnn op (xField w) (nnField w) = w :=
  hop ▸ encodeXnn_fields w

/-- A word of format XKK is made of its high nibble, `X` and the constant (R47). -/
theorem encodeXnn_of_fields {w : Word} {op : Nibble} {nn : Byte} (h : opField w = op ∧ nnField w = nn) :
    encodeXnn op (xField w) nn = w :=
  h.2 ▸ encodeXnn_of_opField h.1

/-- A word of format XYK is made of its high nibble, `X`, `Y` and the constant (R47). -/
theorem encodeXyn_of_fields {w : Word} {op n : Nibble} (h : opField w = op ∧ nField w = n) :
    encodeXyn op (xField w) (yField w) n = w :=
  h.1 ▸ h.2 ▸ encodeXyn_fields w

/-- In group 8 an instruction has `X` and `Y` of its word and the constant `N` the dispatch compared (R54). -/
theorem encode_of_decodeGroup8 {w : Word} {i : Instr} (hop : opField w = 0x8) (h : decodeGroup8 w = .ok i) :
    encode i = w := by
  unfold decodeGroup8 at h
  split at h <;> cases h <;> exact encodeXyn_of_fields ⟨hop, BitVec.eq_of_toNat_eq (by assumption)⟩

/-- In group F an instruction has `X` of its word and the constant `NN` the dispatch compared (R54). -/
theorem encode_of_decodeGroupF {w : Word} {i : Instr} (hop : opField w = 0xF) (h : decodeGroupF w = .ok i) :
    encode i = w := by
  unfold decodeGroupF at h
  split at h <;> cases h <;> exact encodeXnn_of_fields ⟨hop, BitVec.eq_of_toNat_eq (by assumption)⟩

/-- A word that decodes is the word of its instruction (R46, R47). -/
theorem encode_of_decode {w : Word} {i : Instr} (h : decode w = .ok i) : encode i = w := by
  have opField_eq {op : Nibble} (hop : (opField w).toNat = op.toNat) : opField w = op := BitVec.eq_of_toNat_eq hop
  unfold decode at h
  split at h <;> rename_i hop
  · split at h
    · cases h; exact Eq.symm ‹_›
    · split at h <;> cases h; exact Eq.symm ‹_›
  · cases h; exact encodeNnn_of_opField (opField_eq hop)
  · cases h; exact encodeNnn_of_opField (opField_eq hop)
  · cases h; exact encodeXnn_of_opField (opField_eq hop)
  · cases h; exact encodeXnn_of_opField (opField_eq hop)
  · split at h <;> cases h; exact encodeXyn_of_fields ⟨opField_eq hop, ‹_›⟩
  · cases h; exact encodeXnn_of_opField (opField_eq hop)
  · cases h; exact encodeXnn_of_opField (opField_eq hop)
  · exact encode_of_decodeGroup8 (opField_eq hop) h
  · split at h <;> cases h; exact encodeXyn_of_fields ⟨opField_eq hop, ‹_›⟩
  · cases h; exact encodeNnn_of_opField (opField_eq hop)
  · cases h; exact encodeXnn_of_opField (opField_eq hop)
  · cases h; exact encodeXyn_of_fields ⟨opField_eq hop, rfl⟩
  · exact encode_of_decodeGroupF (opField_eq hop) h
  · cases h

/-- Settles O2: each arm of the dispatch has compared the constants of its format. -/
theorem encodeOfDecode : Obligations.EncodeOfDecode := fun _ _ h => encode_of_decode h

/-! The rows of the opcode map. A row compares the fields its mask covers, one lemma per mask (R50). -/

section
variable {r : OpcodeRow} {w : Word} {op n : Nibble} {nn : Byte}

/-- A mask of ones keeps the nibble; the ones are spelled as `simp` leaves them. -/
theorem nibble_and_ones (a : Nibble) : a &&& 15#4 = a := BitVec.and_allOnes

/-- `NN` is the nibbles `Y` and `N` (R46). -/
theorem nnField_eq_iff : nnField w = nn ↔ yField w = nn.extractLsb' 4 4 ∧ nField w = nn.extractLsb' 0 4 := by
  have hy : (nn.extractLsb' 4 4).toNat = nn.toNat / 16 % 16 := by
    rw [BitVec.extractLsb'_toNat, Nat.shiftRight_eq_div_pow]
  have hn : (nn.extractLsb' 0 4).toNat = nn.toNat % 16 := BitVec.extractLsb'_toNat ..
  simp only [← BitVec.toNat_inj, nnField_toNat, yField_toNat, nField_toNat, hy, hn]
  omega

/-- Mask 0xFFFF compares the whole word. -/
theorem selects_word (hmask : r.mask = 0xFFFF) : r.selects w = true ↔ w = r.value := by
  have hw : w &&& 0xFFFF = w := BitVec.and_allOnes
  simp only [OpcodeRow.selects, hmask, hw, beq_iff_eq]

/-- Mask 0xF000 compares the high nibble. -/
theorem selects_op (hvalue : r.value = encodeXyn op 0 0 0) (hmask : r.mask = encodeXyn 0xF 0 0 0) :
    r.selects w = true ↔ opField w = op := by
  rw [selects_iff_fields, hvalue, hmask]
  simp [nibble_and_ones]

/-- Mask 0xF00F compares the high nibble and `N`. -/
theorem selects_op_n (hvalue : r.value = encodeXyn op 0 0 n) (hmask : r.mask = encodeXyn 0xF 0 0 0xF) :
    r.selects w = true ↔ opField w = op ∧ nField w = n := by
  rw [selects_iff_fields, hvalue, hmask]
  simp [nibble_and_ones]

/-- Mask 0xF0FF compares the high nibble and `NN`. -/
theorem selects_op_nn (hvalue : r.value = encodeXnn op 0 nn) (hmask : r.mask = encodeXyn 0xF 0 0xF 0xF) :
    r.selects w = true ↔ opField w = op ∧ nnField w = nn := by
  rw [selects_iff_fields, hvalue, hmask, nnField_eq_iff]
  simp [nibble_and_ones]

end

/-- The word of an instruction selects the instruction's row (R50). -/
theorem row_selects_encode (i : Instr) : i.row.selects (encode i) = true := by
  cases i with
  | cls | ret => rfl
  | jp | call | ldI => exact (selects_op rfl rfl).2 (opField_encodeNnn ..)
  | seImm | sneImm | ldImm | addImm | rnd => exact (selects_op rfl rfl).2 (opField_encodeXnn ..)
  | drw => exact (selects_op rfl rfl).2 (opField_encodeXyn ..)
  | addI | storeRegs | loadRegs =>
    exact (selects_op_nn rfl rfl).2 ⟨opField_encodeXnn .., nnField_encodeXnn ..⟩
  | seReg | sneReg | ldReg | orReg | andReg | xorReg | addReg | sub | shr | subn | shl =>
    exact (selects_op_n rfl rfl).2 ⟨opField_encodeXyn .., nField_encodeXyn ..⟩

/-- A word that an instruction's row selects is the word of an instruction of that row: the mask leaves out the operand
fields only (R50). -/
theorem exists_encode_of_row_selects {i : Instr} {w : Word} (h : i.row.selects w = true) :
    ∃ j : Instr, j.row = i.row ∧ encode j = w := by
  cases i with
  | cls => exact ⟨.cls, rfl, ((selects_word rfl).1 h).symm⟩
  | ret => exact ⟨.ret, rfl, ((selects_word rfl).1 h).symm⟩
  | jp => exact ⟨.jp (nnnField w), rfl, encodeNnn_of_opField ((selects_op rfl rfl).1 h)⟩
  | call => exact ⟨.call (nnnField w), rfl, encodeNnn_of_opField ((selects_op rfl rfl).1 h)⟩
  | seImm => exact ⟨.seImm (xField w) (nnField w), rfl, encodeXnn_of_opField ((selects_op rfl rfl).1 h)⟩
  | sneImm => exact ⟨.sneImm (xField w) (nnField w), rfl, encodeXnn_of_opField ((selects_op rfl rfl).1 h)⟩
  | seReg => exact ⟨.seReg (xField w) (yField w), rfl, encodeXyn_of_fields ((selects_op_n rfl rfl).1 h)⟩
  | ldImm => exact ⟨.ldImm (xField w) (nnField w), rfl, encodeXnn_of_opField ((selects_op rfl rfl).1 h)⟩
  | addImm => exact ⟨.addImm (xField w) (nnField w), rfl, encodeXnn_of_opField ((selects_op rfl rfl).1 h)⟩
  | ldReg => exact ⟨.ldReg (xField w) (yField w), rfl, encodeXyn_of_fields ((selects_op_n rfl rfl).1 h)⟩
  | orReg => exact ⟨.orReg (xField w) (yField w), rfl, encodeXyn_of_fields ((selects_op_n rfl rfl).1 h)⟩
  | andReg => exact ⟨.andReg (xField w) (yField w), rfl, encodeXyn_of_fields ((selects_op_n rfl rfl).1 h)⟩
  | xorReg => exact ⟨.xorReg (xField w) (yField w), rfl, encodeXyn_of_fields ((selects_op_n rfl rfl).1 h)⟩
  | addReg => exact ⟨.addReg (xField w) (yField w), rfl, encodeXyn_of_fields ((selects_op_n rfl rfl).1 h)⟩
  | sub => exact ⟨.sub (xField w) (yField w), rfl, encodeXyn_of_fields ((selects_op_n rfl rfl).1 h)⟩
  | shr => exact ⟨.shr (xField w) (yField w), rfl, encodeXyn_of_fields ((selects_op_n rfl rfl).1 h)⟩
  | subn => exact ⟨.subn (xField w) (yField w), rfl, encodeXyn_of_fields ((selects_op_n rfl rfl).1 h)⟩
  | shl => exact ⟨.shl (xField w) (yField w), rfl, encodeXyn_of_fields ((selects_op_n rfl rfl).1 h)⟩
  | sneReg => exact ⟨.sneReg (xField w) (yField w), rfl, encodeXyn_of_fields ((selects_op_n rfl rfl).1 h)⟩
  | ldI => exact ⟨.ldI (nnnField w), rfl, encodeNnn_of_opField ((selects_op rfl rfl).1 h)⟩
  | rnd => exact ⟨.rnd (xField w) (nnField w), rfl, encodeXnn_of_opField ((selects_op rfl rfl).1 h)⟩
  | drw => exact ⟨.drw (xField w) (yField w) (nField w), rfl, encodeXyn_of_fields ⟨(selects_op rfl rfl).1 h, rfl⟩⟩
  | addI => exact ⟨.addI (xField w), rfl, encodeXnn_of_fields ((selects_op_nn rfl rfl).1 h)⟩
  | storeRegs => exact ⟨.storeRegs (xField w), rfl, encodeXnn_of_fields ((selects_op_nn rfl rfl).1 h)⟩
  | loadRegs => exact ⟨.loadRegs (xField w), rfl, encodeXnn_of_fields ((selects_op_nn rfl rfl).1 h)⟩

/-- Every instruction's row is in the table (R50). -/
theorem row_mem_opcodeTable (i : Instr) : i.row ∈ opcodeTable := by
  cases i <;> simp [opcodeTable, Instr.row]

/-- Every row of the table is the row of an instruction (R50). -/
theorem exists_row_of_mem_opcodeTable : ∀ r ∈ opcodeTable, ∃ i : Instr, i.row = r := by
  simp [opcodeTable]

/-- A word that a row of the table selects decodes to an instruction of that row (R49, R50). -/
theorem decode_of_selects {r : OpcodeRow} {w : Word} (hr : r ∈ opcodeTable) (h : r.selects w = true) :
    ∃ i : Instr, i.row = r ∧ decode w = .ok i := by
  obtain ⟨i, rfl⟩ := exists_row_of_mem_opcodeTable r hr
  obtain ⟨j, hrow, rfl⟩ := exists_encode_of_row_selects h
  exact ⟨j, hrow, decode_encode j⟩

/-- Settles O3: a word selects a row exactly when it decodes to an instruction of that row, and it decodes to one
instruction at most. -/
theorem dispatchFollowsOpcodeMap : Obligations.DispatchFollowsOpcodeMap := by
  refine ⟨fun w i h => ⟨row_mem_opcodeTable i, ?_⟩, fun w e h => ⟨decode_error w e h, fun r hr => ?_⟩,
    fun w r hr r' hr' h h' => ?_⟩
  · rw [← encode_of_decode h]
    exact row_selects_encode i
  · refine Bool.eq_false_iff.2 fun hsel => ?_
    obtain ⟨i, -, hi⟩ := decode_of_selects hr hsel
    cases h.symm.trans hi
  · obtain ⟨i, rfl, hi⟩ := decode_of_selects hr h
    obtain ⟨j, rfl, hj⟩ := decode_of_selects hr' h'
    cases hi.symm.trans hj
    rfl

/-! Words written out, and the formulas of the fields (R46). -/

/-- Settles O4, by computing the decoder on each word. -/
theorem sampleWordsDecode : Obligations.SampleWordsDecode := by
  unfold Obligations.SampleWordsDecode
  decide

/-- Settles O5: a shift is a division and a mask of ones a remainder. -/
theorem fieldsOfAWord : Obligations.FieldsOfAWord := by
  intro w
  have hF (a : Nat) : a &&& 0xF = a % 16 := Nat.and_two_pow_sub_one_eq_mod a 4
  have hFF (a : Nat) : a &&& 0xFF = a % 256 := Nat.and_two_pow_sub_one_eq_mod a 8
  have hFFF (a : Nat) : a &&& 0xFFF = a % 4096 := Nat.and_two_pow_sub_one_eq_mod a 12
  simp only [opField_toNat, xField_toNat, yField_toNat, nField_toNat, nnField_toNat, nnnField_toNat, hF, hFF, hFFF,
    Nat.shiftRight_eq_div_pow, true_and]
  omega

end Sys2Proof
end

section
/-! SUPPORT. The step cycle (spec/40_step_cycle.md R59 to R64): the gate, the fetch and the dispatch, and which
instructions write `pc` and read the random byte. -/

namespace Sys2Proof.Machine

/-! The gate, the fetch and the dispatch. -/

/-- A step in `Quit` has no next state (R60, D13; log 6). -/
theorem step_of_quit {s : State} (h : s.runState = .quit) : step s = .fault .stuckInQuit := by
  simp only [step, h]

/-- The advance changes `pc` only (R62). -/
theorem advance_onlyChanges (s : State) : OnlyChanges [.pc] s (advance s) := setPc_onlyChanges s _

/-- What changed since the advance, and `pc`, is what changed in the whole step. -/
theorem OnlyChanges.of_advance {ps : List Part} {s t : State} (h : OnlyChanges ps (advance s) t) :
    OnlyChanges (.pc :: ps) s t :=
  ((advance_onlyChanges s).mono (by simp)).trans (h.mono (by simp +contextual))

/-- After a successful fetch the advance adds exactly 2 (R62). -/
theorem advance_pc_of_fetch {s : State} {w : Word} (h : fetch s = some w) : (advance s).pc.toNat = s.pc.toNat + 2 :=
  advance_pc_toNat s ((fetch_eq_some s w).1 h).1

/-- Settles O6: a decoded word is run on the advanced state, and a `pc` of at most 4094 does not overflow. -/
theorem stepRunsDecodedInstruction : Obligations.StepRunsDecodedInstruction :=
  fun s _ _ hr hf hd _ => ⟨step_of_decode_ok hr hf hd, advance_pc_of_fetch hf, advance_onlyChanges s⟩

/-- Settles O9, by the gate of each of the two run states. -/
theorem runStateGate : Obligations.RunStateGate := fun _ => ⟨step_of_paused, step_of_quit⟩

/-- Settles O7: above 4094 the fetch gives nothing, up to 4094 it gives the two bytes. -/
theorem fetchIsBoundedAndBigEndian : Obligations.FetchIsBoundedAndBigEndian := by
  refine fun s hr => ⟨fun hpc => ?_, fun hpc => ?_⟩
  · exact ⟨_, step_of_fetch_none hr ((fetch_eq_none s).2 hpc), raise_took _ s, raise_onlyChanges _ s⟩
  · exact ⟨_, (fetch_eq_some s _).2 ⟨hpc, rfl⟩, wordOfBytes_toNat _ _⟩

/-- A word that no row of the table selects decodes to no instruction (R53). -/
theorem decode_error_of_selects_none {w : Word} (h : ∀ r ∈ opcodeTable, r.selects w = false) :
    decode w = .error (.unimplementedOpcode w) := by
  cases hd : decode w with
  | ok i =>
    have hsel := row_selects_encode i
    rw [encode_of_decode hd, h _ (row_mem_opcodeTable i)] at hsel
    cases hsel
  | error e => rw [decode_error w e hd]

/-- Settles O8: a selected row gives the decoded instruction, no row gives the decoder's error. -/
theorem dispatchOrUnimplementedOpcode : Obligations.DispatchOrUnimplementedOpcode := by
  refine fun s w hr hf => ⟨fun r hrow hsel => ?_, fun hnone => ?_⟩
  · obtain ⟨i, hi, hd⟩ := decode_of_selects hrow hsel
    exact ⟨i, hi, encode_of_decode hd, step_of_decode_ok hr hf hd⟩
  · exact ⟨_, step_of_decode_error hr hf (decode_error_of_selects_none hnone), raise_took _ _, advance_pc_of_fetch hf,
      (raise_onlyChanges _ _).of_advance⟩

/-! Who writes `pc` and who reads the random byte. -/

/-- Settles O21: `pc` is among the changed parts of jumps, calls, returns and skips only. -/
theorem onlyControlTransfersChangePc : Obligations.OnlyControlTransfersChangePc := by
  intro i s t h hjp hcall hret hseImm hsneImm hseReg hsneReg
  have hpc : Part.pc ∉ changedParts i := by cases i <;> simp_all [changedParts]
  exact exec_onlyChanges h .pc hpc

/-- The state with another count of drawn bytes (log 4). -/
def State.withDraws (n : Nat) (s : State) : State := { s with draws := n }

/-- Another count of drawn bytes is an unseen update: no instruction but `CXNN` reads it (R90). -/
theorem unseen_withDraws (n : Nat) : Unseen (State.withDraws n) := by
  constructor
  case push => exact fun s w => by by_cases h : s.sp.val < 12 <;> simp [push, State.withDraws, h]
  case pop => exact fun s => by by_cases h : 0 < s.sp.val <;> simp [pop, State.withDraws, h]
  all_goals intros; rfl

/-- Settles O24: another count of drawn bytes is an unseen update. -/
theorem onlyRandomReadsTheRandomByte : Obligations.OnlyRandomReadsTheRandomByte :=
  fun _ _ _ n hi h => (unseen_withDraws n).exec hi h

end Sys2Proof.Machine
end

section
/-! SUPPORT. Precise faults (spec/40_step_cycle.md R66): which instructions can end in `Quit`, when they do, and the state
each leaves. -/

namespace Sys2Proof.Machine

/-! Who faults, and when. -/

section
variable {s t : State} {x y : RegIdx} {n : Nibble} {k : Nat}

/-- A call that ends in `Quit` met a full stack, and did nothing but fault (R70). -/
theorem exec_call_quit {nnn : Addr} (h : exec (.call nnn) s = .next t) (hs : s.runState ≠ .quit)
    (ht : t.runState = .quit) : s.sp.val = 12 ∧ t = raise .stackOverflow s := by
  simp only [exec, execCall] at h
  split at h <;> obtain rfl := Host.Outcome.next.inj h
  next hfull => exact ⟨(push_eq_none _ _).1 hfull, rfl⟩
  next u hu => exact absurd ((push_onlyChanges hu .runState (by simp)).symm.trans ht) hs

/-- A return that ends in `Quit` met an empty stack, and did nothing but fault (R71). -/
theorem exec_ret_quit (h : exec .ret s = .next t) (hs : s.runState ≠ .quit) (ht : t.runState = .quit) :
    s.sp.val = 0 ∧ t = raise .stackUnderflow s := by
  simp only [exec, execRet] at h
  split at h <;> obtain rfl := Host.Outcome.next.inj h
  next hempty => exact ⟨(pop_eq_none _).1 hempty, rfl⟩
  next u hu => exact absurd ((pop_onlyChanges hu .runState (by simp)).symm.trans ht) hs

/-- An effective address lies `k` above the first (R35, R93). -/
theorem effAddr_eq_add (s : State) (k : Nat) : effAddr s k = effAddr s 0 + k := rfl

/-- A transfer makes more accesses than lie below 4096 exactly when its last address lies above 4095 (R36, R93). -/
theorem regCount_past_iff : 4096 - effAddr s 0 < regCount x ↔ 4095 < effAddr s x.toNat := by
  rw [effAddr_eq_add s x.toNat, regCount]
  omega

/-- A transfer that ends in `Quit` had an address above 4095 (R36, R93). -/
theorem accessLoop_quit {act : Nat → State → State} (hact : ∀ k s, (act k s).runState = s.runState)
    (hs : s.runState ≠ .quit) (ht : (accessLoop (effAddr s 0) act (regCount x) 0 s).runState = .quit) :
    4095 < effAddr s x.toNat := by
  refine Decidable.byContradiction fun hx => hs ?_
  rw [← regCount_past_iff] at hx
  rwa [accessLoop_inBounds (effAddr s 0) _ _ _ _ (Nat.not_lt.1 hx), iterAccess_keeps State.runState act hact] at ht

/-- The rows a draw completes are those on the Display whose bytes lie in memory (R98, R99). -/
theorem rowsDrawn_eq_min (s : State) (y : RegIdx) (n : Nibble) :
    rowsDrawn n.toNat (startRow s y) (effAddr s 0) = min (rowsOnDisplay s y n) (4096 - effAddr s 0) := rfl

/-- A draw that ends in `Quit` had a row on the Display whose byte lies above 4095 (R98). -/
theorem exec_drw_quit (h : exec (.drw x y n) s = .next t) (hs : s.runState ≠ .quit) (ht : t.runState = .quit) :
    0 < rowsOnDisplay s y n ∧ 4095 < effAddr s (rowsOnDisplay s y n - 1) := by
  obtain rfl := Host.Outcome.next.inj h
  obtain ⟨hdone, -⟩ := drawRows_status (effAddr s 0) (startColumn s x) n.toNat 0 _ (s.setFlag 0) (startRow_lt s y)
  have hpast : rowsDrawn n.toNat (startRow s y) (effAddr s 0) ≠ rowsOnDisplay s y n :=
    fun hall => hs ((hdone hall).1.symm.trans ht)
  rw [rowsDrawn_eq_min] at hpast
  rw [effAddr_eq_add s (rowsOnDisplay s y n - 1)]
  omega

/-- The instructions that can end in `Quit`, and when they do (R66, R105). -/
theorem exec_quit_cases {i : Instr} (h : exec i s = .next t) (hs : s.runState ≠ .quit) (ht : t.runState = .quit) :
    (∃ nnn, i = .call nnn ∧ s.sp.val = 12 ∧ t = raise .stackOverflow s) ∨
    (i = .ret ∧ s.sp.val = 0 ∧ t = raise .stackUnderflow s) ∨
    (∃ x, i = .storeRegs x ∧ 4095 < effAddr s x.toNat) ∨
    (∃ x, i = .loadRegs x ∧ 4095 < effAddr s x.toNat) ∨
    (∃ x y n, i = .drw x y n ∧ 0 < rowsOnDisplay s y n ∧ 4095 < effAddr s (rowsOnDisplay s y n - 1)) := by
  have hstatus : Part.runState ∈ changedParts i := by
    refine Decidable.byContradiction fun hi => hs ?_
    exact (exec_onlyChanges h .runState hi).symm.trans ht
  cases i
  case call nnn => exact .inl ⟨nnn, rfl, exec_call_quit h hs ht⟩
  case ret => exact .inr (.inl ⟨rfl, exec_ret_quit h hs ht⟩)
  case storeRegs x =>
    obtain rfl := Host.Outcome.next.inj h
    exact .inr (.inr (.inl ⟨x, rfl, accessLoop_quit (act := storeReg _) (fun _ _ => rfl) hs ht⟩))
  case loadRegs x =>
    obtain rfl := Host.Outcome.next.inj h
    exact .inr (.inr (.inr (.inl ⟨x, rfl, accessLoop_quit (act := loadReg _) (fun _ _ => rfl) hs ht⟩)))
  case drw x y n => exact .inr (.inr (.inr (.inr ⟨x, y, n, rfl, exec_drw_quit h hs ht⟩)))
  all_goals simp [changedParts] at hstatus

/-! What a data access above 4095 leaves (D5, D6; log 9). -/

/-- `FX55` whose last address lies above 4095 makes the stores below and faults at the first address above (R36, R94). -/
theorem exec_storeRegs_past (hx : 4095 < effAddr s x.toNat) :
    exec (.storeRegs x) s = .next (raise (.outOfBounds (max (effAddr s 0) 4096))
      (iterAccess (storeReg (effAddr s 0)) (4096 - effAddr s 0) 0 s)) :=
  congrArg Host.Outcome.next (accessLoop_past _ _ _ _ _ (regCount_past_iff.2 hx))

/-- `FX65` whose last address lies above 4095 makes the loads below and faults at the first address above (R36, R95). -/
theorem exec_loadRegs_past (hx : 4095 < effAddr s x.toNat) :
    exec (.loadRegs x) s = .next (raise (.outOfBounds (max (effAddr s 0) 4096))
      (iterAccess (loadReg (effAddr s 0)) (4096 - effAddr s 0) 0 s)) :=
  congrArg Host.Outcome.next (accessLoop_past _ _ _ _ _ (regCount_past_iff.2 hx))

/-- The bytes after the register stores below 4096 (R36, R94). -/
theorem storeRegs_below_byte (base : Nat) (hm : s.mem.wf) (a : Nat) :
    (iterAccess (storeReg base) (4096 - base) 0 s).byte a =
      if base ≤ a ∧ a < 4096 then s.reg (regOf (a - base)) else s.byte a := by
  by_cases hb : base ≤ 4096
  · rw [storeRegs_bytes base _ 0 s hm (by omega), Nat.add_zero, Nat.add_sub_cancel' hb]
  · rw [show 4096 - base = 0 by omega, if_neg (by omega)]
    rfl

/-- A register number of at most 15 names that register (R48). -/
theorem regOf_toNat (hk : k ≤ 15) : (regOf k).toNat = k :=
  (BitVec.toNat_ofNat k 4).trans (Nat.mod_eq_of_lt (by omega))

/-- The state `FX55` leaves when its last address lies above 4095: the bytes below 4096 are stored, no other byte is
touched, and the fault carries the first address above 4095 (R36, R94; D5, D6). -/
theorem exec_storeRegs_fault (h : exec (.storeRegs x) s = .next t) (hx : 4095 < effAddr s x.toNat) :
    Took (.outOfBounds (max (effAddr s 0) 4096)) t ∧
    (s.mem.wf → ∀ k, k ≤ x.toNat → effAddr s k ≤ 4095 → t.byte (effAddr s k) = s.reg (regOf k)) ∧
    (s.mem.wf → ∀ a, (∀ k, k ≤ x.toNat → effAddr s k ≤ 4095 → a ≠ effAddr s k) → t.byte a = s.byte a) := by
  obtain rfl := Host.Outcome.next.inj ((exec_storeRegs_past hx).symm.trans h)
  rw [effAddr_eq_add s x.toNat] at hx
  refine ⟨raise_took _ _, fun hm k _ hk => ?_, fun hm a ha => ?_⟩ <;> rw [raise_byte, storeRegs_below_byte _ hm]
  · rw [effAddr_eq_add s k] at hk ⊢
    rw [if_pos (by omega), Nat.add_sub_cancel_left]
  · refine if_neg fun ⟨hlow, hhigh⟩ => ?_
    have hcell : effAddr s (a - effAddr s 0) = a := Nat.add_sub_cancel' hlow
    exact ha (a - effAddr s 0) (by omega) (by omega) hcell.symm

/-- The state `FX65` leaves when its last address lies above 4095: the registers with addresses below 4096 are loaded, no
other register is touched, and the fault carries the first address above 4095 (R36, R95; D5, D6). -/
theorem exec_loadRegs_fault (h : exec (.loadRegs x) s = .next t) (hx : 4095 < effAddr s x.toNat) :
    Took (.outOfBounds (max (effAddr s 0) 4096)) t ∧
    (∀ k, k ≤ x.toNat → effAddr s k ≤ 4095 → t.reg (regOf k) = s.byte (effAddr s k)) ∧
    (∀ k, k ≤ 15 → (x.toNat < k ∨ 4095 < effAddr s k) → t.reg (regOf k) = s.reg (regOf k)) := by
  obtain rfl := Host.Outcome.next.inj ((exec_loadRegs_past hx).symm.trans h)
  have hlast : x.toNat ≤ 15 := Nat.le_of_lt_succ x.isLt
  rw [effAddr_eq_add s x.toNat] at hx
  have hregs := loadRegs_regs (effAddr s 0) (4096 - effAddr s 0) 0 s (by omega)
  refine ⟨raise_took _ _, fun k hkx hk => ?_, fun k hk15 hk => ?_⟩ <;>
    rw [raise_reg, hregs, regOf_toNat (by omega)] <;> rw [effAddr_eq_add s k] at hk
  · exact if_pos (by omega)
  · exact if_neg (by omega)

/-! The cells and the flag after a draw, for any number of completed rows (R98, R99). -/

/-- The columns of a sprite on the Display: at most 8, none beyond the right edge (R99). -/
theorem lt_columnsOnDisplay_iff {c : Nat} : c < columnsOnDisplay s x ↔ c < 8 ∧ startColumn s x + c < 64 := by
  rw [columnsOnDisplay, width_eq]
  omega

/-- A cell under a sprite, by its row and its column (R96, R99). -/
theorem eq_spriteCell_iff {r c j : Nat} (hc : c < columnsOnDisplay s x) :
    j = spriteCell s x y r c ↔ j / 64 = startRow s y + r ∧ j % 64 = startColumn s x + c := by
  have hx := (lt_columnsOnDisplay_iff.1 hc).2
  rw [spriteCell, cellIndex, width_eq]
  omega

/-- The draw's own collision is the collision of the rows it completes (R98, R99). -/
theorem drawCollides_iff : drawCollides (effAddr s 0) (startColumn s x) n.toNat 0 (startRow s y) (s.setFlag 0) ↔
    Collides s x y (rowsDrawn n.toNat (startRow s y) (effAddr s 0)) := by
  constructor
  · rintro ⟨r, hr, c, hc, hx, hpixel, hbit⟩
    rw [Nat.zero_add] at hbit
    exact ⟨r, c, hr, lt_columnsOnDisplay_iff.2 ⟨hc, hx⟩, hpixel, hbit⟩
  · rintro ⟨r, c, hr, hc, hpixel, hbit⟩
    obtain ⟨hc, hx⟩ := lt_columnsOnDisplay_iff.1 hc
    rw [← Nat.zero_add c] at hbit
    exact ⟨r, hr, c, hc, hx, hpixel, hbit⟩

/-- A draw draws the rows on the Display whose bytes lie in memory, whether or not it faults after them (R98, R99). -/
theorem exec_drw_drawn (h : exec (.drw x y n) s = .next t) :
    Drawn s t x y (rowsDrawn n.toNat (startRow s y) (effAddr s 0)) := by
  obtain rfl := Host.Outcome.next.inj h
  have hx := startColumn_lt s x
  have hy := startRow_lt s y
  have hpixel := drawRows_pixel (effAddr s 0) (startColumn s x) n.toNat 0 (startRow s y) (s.setFlag 0) hx hy
  obtain ⟨hit, miss⟩ := drawRows_reg (effAddr s 0) (startColumn s x) n.toNat 0 (startRow s y) (s.setFlag 0) hx hy 0xF
  rw [Nat.add_zero] at hpixel
  refine ⟨fun r c hr hc => ?_, fun k hk => ?_, fun hcol => ?_, fun hcol => ?_⟩
  · obtain ⟨hrow, hcolumn⟩ := (eq_spriteCell_iff (y := y) (r := r) hc).1 rfl
    have hc8 := (lt_columnsOnDisplay_iff.1 hc).1
    rw [hpixel, hrow, hcolumn, Nat.add_sub_cancel_left, Nat.add_sub_cancel_left]
    exact if_pos (by omega)
  · rw [hpixel]
    refine if_neg fun ⟨hrow, hrow', hcolumn, hcolumn'⟩ => ?_
    have hc : k % 64 - startColumn s x < columnsOnDisplay s x := lt_columnsOnDisplay_iff.2 (by omega)
    exact hk (k / 64 - startRow s y) _ (by omega) hc ((eq_spriteCell_iff hc).2 (by omega))
  · rw [hit (drawCollides_iff.2 hcol), if_pos rfl]
  · rw [miss fun hd => hcol (drawCollides_iff.1 hd), State.setFlag_reg, if_pos rfl]

/-- The state a draw leaves when a row on the Display lies above 4095: the rows below are drawn, and the fault carries the
first address above 4095 (R98; D5, D6). -/
theorem exec_drw_fault (h : exec (.drw x y n) s = .next t) (hrows : 0 < rowsOnDisplay s y n)
    (hlast : 4095 < effAddr s (rowsOnDisplay s y n - 1)) :
    Took (.outOfBounds (max (effAddr s 0) 4096)) t ∧ Drawn s t x y (4096 - effAddr s 0) := by
  rw [effAddr_eq_add s (rowsOnDisplay s y n - 1)] at hlast
  have hdrawn := exec_drw_drawn h
  have hfew : rowsDrawn n.toNat (startRow s y) (effAddr s 0) = 4096 - effAddr s 0 := by
    rw [rowsDrawn_eq_min]
    omega
  rw [hfew] at hdrawn
  obtain rfl := Host.Outcome.next.inj h
  obtain ⟨-, hpast⟩ := drawRows_status (effAddr s 0) (startColumn s x) n.toNat 0 _ (s.setFlag 0) (startRow_lt s y)
  rw [Nat.add_zero, hfew] at hpast
  have hfirst : effAddr s 0 + (4096 - effAddr s 0) = max (effAddr s 0) 4096 := by omega
  rw [hfirst] at hpast
  exact ⟨hpast (show 4096 - effAddr s 0 < rowsOnDisplay s y n by omega), hdrawn⟩

end

/-! The step. -/

/-- Settles O25: a failed fetch, an illegal word, or an instruction of the table of R66 on the advanced state, each with the
state it leaves. -/
theorem faultsArePrecise : Obligations.FaultsArePrecise := by
  intro s t hr h ht
  obtain ⟨hp, -⟩ | ⟨-, hf, rfl⟩ | ⟨-, w, hf, hd, rfl⟩ | ⟨-, w, i, hf, hd, hx⟩ := step_cases s t h
  · cases hp.symm.trans hr
  · exact .inl ⟨(fetch_eq_none s).1 hf, rfl, raise_onlyChanges _ s⟩
  · exact .inr ⟨w, hf, advance_pc_of_fetch hf, .inl ⟨hd, rfl, (raise_onlyChanges _ _).of_advance⟩⟩
  have hpc : t.pc = (advance s).pc → t.pc.toNat = s.pc.toNat + 2 := fun h => h ▸ advance_pc_of_fetch hf
  have frame {qs : List Part} (hqs : ∀ p ∈ Part.pc :: changedParts i, p ∈ qs) : OnlyChanges qs s t :=
    (exec_onlyChanges hx).of_advance.mono hqs
  refine .inr ⟨w, hf, ?_⟩
  obtain ⟨nnn, rfl, hsp, rfl⟩ | ⟨rfl, hsp, rfl⟩ | ⟨x, rfl, hlast⟩ | ⟨x, rfl, hlast⟩ | ⟨x, y, n, rfl, hrows, hlast⟩ :=
    exec_quit_cases hx (by simp [hr]) ht
  · exact ⟨hpc rfl, .inr (.inl ⟨nnn, hd, hsp, rfl, (raise_onlyChanges _ _).of_advance⟩)⟩
  · exact ⟨hpc rfl, .inr (.inr (.inl ⟨hd, hsp, rfl, (raise_onlyChanges _ _).of_advance⟩))⟩
  · obtain ⟨⟨-, hfault⟩, hstored, hkept⟩ := exec_storeRegs_fault hx hlast
    exact ⟨hpc (exec_onlyChanges hx .pc (by simp [changedParts])), .inr (.inr (.inr (.inl
      ⟨x, hd, hlast, hfault, hstored, hkept, frame (by simp [changedParts])⟩)))⟩
  · obtain ⟨⟨-, hfault⟩, hloaded, hkept⟩ := exec_loadRegs_fault hx hlast
    exact ⟨hpc (exec_onlyChanges hx .pc (by simp [changedParts])), .inr (.inr (.inr (.inr (.inl
      ⟨x, hd, hlast, hfault, hloaded, hkept, frame (by simp [changedParts])⟩))))⟩
  · obtain ⟨⟨-, hfault⟩, hdrawn⟩ := exec_drw_fault hx hrows hlast
    exact ⟨hpc (exec_onlyChanges hx .pc (by simp [changedParts])), .inr (.inr (.inr (.inr (.inr
      ⟨x, y, n, hd, hrows, hlast, hfault, hdrawn, exec_sameRegsBut hx, frame (by simp [changedParts])⟩))))⟩

end Sys2Proof.Machine
end

section
/-! SUPPORT. Control transfer (spec/41_control_flow.md R68 to R75): the jump, the call and the return with and without
room on the stack, their round trip, and the four skips. -/

namespace Sys2Proof.Machine

/-! The jump. -/

/-- Zero-extending an address keeps its value (R8, R48). -/
theorem zextAddr_toNat (nnn : Addr) : (zextAddr nnn).toNat = nnn.toNat :=
  BitVec.toNat_setWidth_of_le (by decide)

/-- Settles O26: the decoder reads the jump back from its word, and the jump is a write of `pc`. -/
theorem jumpSetsPc : Obligations.JumpSetsPc := fun nnn s =>
  ⟨decode_encode (.jp nnn), _, rfl, zextAddr_toNat nnn, setPc_onlyChanges s _⟩

/-! The call and the return, by what the stack answers. -/

/-- With room on the stack a push succeeds: `w` becomes the top entry and the entries below stay (R18). -/
theorem exists_push {s : State} (hs : s.sp.val < 12) (w : Word) :
    ∃ u, push w s = some u ∧ u.sp.val = s.sp.val + 1 ∧ u.stack[s.sp.val] = w ∧
      ∀ k (hk : k < 12), k < s.sp.val → u.stack[k] = s.stack[k] := by
  refine ⟨_, dif_pos hs, rfl, Vector.getElem_set_self hs, fun k hk hlt => ?_⟩
  exact Vector.getElem_set_ne hs hk (Nat.ne_of_gt hlt)

/-- With a valid entry a pop succeeds: it answers the top entry and changes `sp` only (R18; log 8). -/
theorem exists_pop {s : State} (hs : 0 < s.sp.val) :
    ∃ u, pop s = some (s.stack[s.sp.val - 1], u) ∧ u.sp.val = s.sp.val - 1 ∧ u.stack = s.stack :=
  ⟨_, dif_pos hs, rfl, rfl⟩

/-- A call whose push succeeds jumps from the pushed state (R70). -/
theorem exec_call_of_push {nnn : Addr} {s u : State} (h : push s.pc s = some u) :
    exec (.call nnn) s = .next (u.setPc (zextAddr nnn)) := by
  simp only [exec, execCall, h]

/-- A call whose push fails faults (R70). -/
theorem exec_call_of_full {nnn : Addr} {s : State} (h : push s.pc s = none) :
    exec (.call nnn) s = .next (raise .stackOverflow s) := by
  simp only [exec, execCall, h]

/-- A return whose pop succeeds jumps to the popped address (R71). -/
theorem exec_ret_of_pop {w : Word} {s u : State} (h : pop s = some (w, u)) : exec .ret s = .next (u.setPc w) := by
  simp only [exec, execRet, h]

/-- A return whose pop fails faults (R71). -/
theorem exec_ret_of_empty {s : State} (h : pop s = none) : exec .ret s = .next (raise .stackUnderflow s) := by
  simp only [exec, execRet, h]

/-- Settles O27: the push succeeds, and the jump after it keeps the stack. -/
theorem callPushesReturnAddress : Obligations.CallPushesReturnAddress := by
  intro nnn s hs
  obtain ⟨u, hu, hsp, htop, hbelow⟩ := exists_push hs s.pc
  have frame : OnlyChanges [.pc, .stack] s (u.setPc (zextAddr nnn)) :=
    ((push_onlyChanges hu).mono (by simp)).trans ((setPc_onlyChanges u _).mono (by simp))
  exact ⟨_, exec_call_of_push hu, zextAddr_toNat nnn, hsp, htop, hbelow, frame⟩

/-- Settles O28: the push fails, and the fault changes the status only. -/
theorem callOnFullStackFaults : Obligations.CallOnFullStackFaults := fun _ s hs =>
  ⟨_, exec_call_of_full ((push_eq_none _ s).2 hs), raise_took _ s, raise_onlyChanges _ s⟩

/-- Settles O29: the pop succeeds and leaves every slot as it is, and the jump after it keeps the stack. -/
theorem returnPopsPc : Obligations.ReturnPopsPc := by
  intro s hs
  obtain ⟨u, hu, hsp, hstack⟩ := exists_pop hs
  have frame : OnlyChanges [.pc, .stack] s (u.setPc s.stack[s.sp.val - 1]) :=
    ((pop_onlyChanges hu).mono (by simp)).trans ((setPc_onlyChanges u _).mono (by simp))
  exact ⟨_, exec_ret_of_pop hu, rfl, hsp, fun k _ _ => by simp only [State.setPc_stack, hstack], frame⟩

/-- Settles O30: the pop fails, and the fault changes the status only. -/
theorem returnOnEmptyStackFaults : Obligations.ReturnOnEmptyStackFaults := fun s hs =>
  ⟨_, exec_ret_of_empty ((pop_eq_none s).2 hs), raise_took _ s, raise_onlyChanges _ s⟩

/-- Settles O31: call and return change `pc` and the stack only, the return pops the entry the call pushed, and the
entries below it are those from before the call. -/
theorem callThenReturnRestores : Obligations.CallThenReturnRestores := by
  intro nnn s hs
  obtain ⟨t, ht, -, hpush, htop, hbelow, hcall⟩ := callPushesReturnAddress nnn s hs
  have hvalid : 0 < (advance t).sp.val := hpush ▸ Nat.succ_pos _
  obtain ⟨u, hu, hupc, hpop, hkept, hret⟩ := returnPopsPc (advance t) hvalid
  have hsp : u.sp.val = s.sp.val := hpop.trans (congrArg (· - 1) hpush)
  have hpc : u.pc = s.pc := by
    rw [hupc, ← htop]
    congr 1
    exact congrArg (· - 1) hpush
  have frame : OnlyChanges [.pc, .stack] s u := hcall.trans (((advance_onlyChanges t).mono (by simp)).trans hret)
  refine ⟨t, u, ht, hu, hpc, fun p _ => ?_⟩
  cases p
  case pc => exact hpc
  case stack => exact ⟨Fin.ext hsp, fun k hk hlt => (hkept k hk (hsp ▸ hlt)).trans (hbelow k hk hlt)⟩
  all_goals exact frame _ (by simp)

/-! The skips. -/

/-- `5XYN` is the skip with `N = 0` and refused with its raw word otherwise (R52, R74). -/
theorem decode_encodeXyn_op5 (x y : RegIdx) (n : Nibble) : decode (encodeXyn 0x5 x y n) =
    if n = 0 then .ok (.seReg x y) else .error (.unimplementedOpcode (encodeXyn 0x5 x y n)) := by
  simp [decode]

/-- `9XYN` is the skip with `N = 0` and refused with its raw word otherwise (R52, R75). -/
theorem decode_encodeXyn_op9 (x y : RegIdx) (n : Nibble) : decode (encodeXyn 0x9 x y n) =
    if n = 0 then .ok (.sneReg x y) else .error (.unimplementedOpcode (encodeXyn 0x9 x y n)) := by
  simp [decode]

/-- An instruction that skips on the comparison `c`, said of the condition `p` it decides (R67). -/
theorem exec_skipIf {i : Instr} {s : State} {c : Bool} {p : Prop} [Decidable p] (hc : c = true ↔ p)
    (hi : exec i s = .next (skipIf c s)) :
    ∃ t, exec i s = .next t ∧ t.pc = (if p then s.pc + 2 else s.pc) ∧ OnlyChanges [.pc] s t :=
  ⟨_, hi, by simp only [skipIf_pc, hc], skipIf_onlyChanges c s⟩

/-- Settles O32: the words by the decoder, each skip by the comparison it makes. -/
theorem skipsOnCondition : Obligations.SkipsOnCondition := by
  refine ⟨fun x nn => ⟨decode_encode (.seImm x nn), decode_encode (.sneImm x nn)⟩,
    fun x y n => ⟨decode_encodeXyn_op5 x y n, decode_encodeXyn_op9 x y n⟩, ?_, ?_, ?_, ?_⟩
  · exact fun _ _ _ => exec_skipIf beq_iff_eq rfl
  · exact fun _ _ _ => exec_skipIf bne_iff_ne rfl
  · exact fun _ _ _ => exec_skipIf beq_iff_eq rfl
  · exact fun _ _ _ => exec_skipIf bne_iff_ne rfl

end Sys2Proof.Machine
end

section
/-! SUPPORT. Register loads, arithmetic, logic, shifts and the random byte (spec/42_alu.md R76 to R90): the value of
each result and of each flag, the write of a result with and without a flag. -/

namespace Sys2Proof.Machine

/-! A write of `V[X]` alone. -/

/-- A register just written reads back (R8). -/
theorem setReg_reg_self (s : State) (x : RegIdx) (b : Byte) : (s.setReg x b).reg x = b := by
  rw [State.setReg_reg, if_pos rfl]

/-- A register write is a write of that register and of nothing else (R8, R11). -/
theorem setReg_frame (s : State) (x : RegIdx) (b : Byte) :
    SameRegsBut [x] s (s.setReg x b) ∧ OnlyChanges [.regs] s (s.setReg x b) :=
  ⟨setReg_sameRegsBut s x b, setReg_onlyChanges s x b⟩

/-- Settles O33: the decoder reads the words back, and each instruction is one register write. -/
theorem immediateLoadAndAdd : Obligations.ImmediateLoadAndAdd := by
  refine ⟨fun x nn => ⟨decode_encode (.ldImm x nn), decode_encode (.addImm x nn)⟩,
    fun x nn s => ?_, fun x nn s => ?_⟩
  · exact ⟨_, rfl, setReg_reg_self s x _, setReg_frame s x _⟩
  · have sum : ((s.setReg x (s.reg x + nn)).reg x).toNat = ((s.reg x).toNat + nn.toNat) % 256 := by
      rw [setReg_reg_self, BitVec.toNat_add]
    exact ⟨_, rfl, sum, setReg_frame s x _⟩

/-- Settles O34: the decoder reads the words back, and each instruction is one register write of the copied or combined
byte. -/
theorem copyAndLogic : Obligations.CopyAndLogic := by
  intro x y s
  refine ⟨⟨decode_encode (.ldReg x y), decode_encode (.orReg x y), decode_encode (.andReg x y),
    decode_encode (.xorReg x y)⟩, ⟨_, rfl, ?_, setReg_frame s x _⟩, ⟨_, rfl, fun j => ?_, setReg_frame s x _⟩,
    ⟨_, rfl, fun j => ?_, setReg_frame s x _⟩, ⟨_, rfl, fun j => ?_, setReg_frame s x _⟩⟩
  · rw [setReg_reg_self]
  · rw [setReg_reg_self, BitVec.getLsbD_or]
  · rw [setReg_reg_self, BitVec.getLsbD_and]
  · rw [setReg_reg_self, BitVec.getLsbD_xor]

/-- Settles O39: the draw counts the byte and keeps the registers, and the masked byte is a register write after it. -/
theorem randomByteIsMasked : Obligations.RandomByteIsMasked := by
  intro x nn s
  have run : exec (.rnd x nn) s = .next (storeRandom x nn (drawByte s).1 (drawByte s).2) := rfl
  have masked : (storeRandom x nn (drawByte s).1 (drawByte s).2).reg x = Config.randomByte s.draws &&& nn :=
    setReg_reg_self _ x _
  refine ⟨_, run, masked, fun j hj => ?_, rfl, exec_sameRegsBut run, exec_onlyChanges run⟩
  rw [masked, BitVec.getLsbD_and, hj, Bool.and_false]

/-! The values of the flags (R88). -/

/-- A flag byte as a number (R88). -/
theorem flagByte_toNat (b : Bool) : (flagByte b).toNat = b.toNat := by cases b <;> rfl

/-- A flag that reports a condition is 1 exactly when the condition holds (R88). -/
theorem flagByte_decide_toNat (p : Prop) [Decidable p] : (flagByte (decide p)).toNat = if p then 1 else 0 := by
  rw [flagByte_toNat]
  exact Bool.cond_decide p 1 0

/-- The carry (R83). -/
theorem carryFlag_toNat (a b : Byte) : (carryFlag a b).toNat = if a.toNat + b.toNat > 255 then 1 else 0 :=
  flagByte_decide_toNat _

/-- The complement of the borrow (R84, R86). -/
theorem noBorrowFlag_toNat (a b : Byte) : (noBorrowFlag a b).toNat = if b.toNat ≤ a.toNat then 1 else 0 :=
  flagByte_decide_toNat _

/-- The bit a right shift loses is the remainder of the halving (R85). -/
theorem shrFlag_toNat (a : Byte) : (shrFlag a).toNat = a.toNat % 2 := by
  rw [shrFlag, flagByte_toNat, ← BitVec.testBit_toNat, Nat.toNat_testBit, pow_zero, Nat.div_one]

/-- The bit a left shift loses is the top bit (R87). -/
theorem shlFlag_toNat (a : Byte) : (shlFlag a).toNat = a.toNat / 128 := by
  have ha : a.toNat < 256 := a.isLt
  rw [shlFlag, flagByte_toNat, ← BitVec.testBit_toNat, Nat.toNat_testBit]
  omega

/-! The values of the results (R88). -/

/-- A sum modulo 256 (R83). -/
theorem byte_add_toNat (a b : Byte) :
    (a + b).toNat = if a.toNat + b.toNat ≤ 255 then a.toNat + b.toNat else a.toNat + b.toNat - 256 := by
  rw [BitVec.toNat_add]
  split <;> omega

/-- A difference modulo 256 (R84, R86). -/
theorem byte_sub_toNat (a b : Byte) :
    (a - b).toNat = if b.toNat ≤ a.toNat then a.toNat - b.toNat else a.toNat + 256 - b.toNat := by
  rw [BitVec.toNat_sub]
  split <;> omega

/-- A right shift by one halves (R85). -/
theorem byte_shr_toNat (a : Byte) : (a >>> 1).toNat = a.toNat / 2 := by
  rw [BitVec.toNat_ushiftRight, Nat.shiftRight_one]

/-- A left shift by one doubles modulo 256 (R87). -/
theorem byte_shl_toNat (a : Byte) : (a <<< 1).toNat = 2 * a.toNat % 256 := by
  rw [BitVec.toNat_shiftLeft, Nat.shiftLeft_eq, Nat.mul_comm]

/-! A write of a result and its flag. -/

/-- Away from the flag register the result stands in `V[X]` after the flag is written (R78). -/
theorem writeResultAndFlag_resultReg {x : RegIdx} (hx : x ≠ 0xF) (r f : Byte) (s : State) :
    (writeResultAndFlag x r f s).reg x = r := by
  rw [writeResultAndFlag_eq, State.setFlag_reg, if_neg hx, setReg_reg_self]

/-- An instruction that writes the result `r` and the flag `f`, said of their values (R78, D10; log 5). -/
theorem exec_writeResultAndFlag {i : Instr} {x : RegIdx} {r f : Byte} {s : State} {result flag : Nat}
    (hr : r.toNat = result) (hf : f.toNat = flag) (hi : exec i s = .next (writeResultAndFlag x r f s)) :
    ∃ t, exec i s = .next t ∧ (x ≠ 0xF → (t.reg x).toNat = result) ∧ (t.reg 0xF).toNat = flag ∧
      SameRegsBut [x, 0xF] s t ∧ OnlyChanges [.regs] s t := by
  refine ⟨_, hi, fun hx => ?_, ?_, writeResultAndFlag_sameRegsBut x r f s, writeResultAndFlag_onlyChanges x r f s⟩
  · rw [writeResultAndFlag_resultReg hx, hr]
  · rw [writeResultAndFlag_flagReg, hf]

/-- Settles O35, by the values of the sum and of its carry. -/
theorem addSetsCarry : Obligations.AddSetsCarry := fun _ _ _ =>
  exec_writeResultAndFlag (byte_add_toNat _ _) (carryFlag_toNat _ _) rfl

/-- Settles O36, by the values of the difference and of its no-borrow flag, in both orders of the operands. -/
theorem subtractionsSetNoBorrow : Obligations.SubtractionsSetNoBorrow := fun _ _ _ =>
  ⟨exec_writeResultAndFlag (byte_sub_toNat _ _) (noBorrowFlag_toNat _ _) rfl,
    exec_writeResultAndFlag (byte_sub_toNat _ _) (noBorrowFlag_toNat _ _) rfl⟩

/-- Settles O37, by the values of the shifted byte and of the bit lost; `Y` is read by neither. -/
theorem shiftsReportLostBit : Obligations.ShiftsReportLostBit := fun _ _ _ =>
  ⟨exec_writeResultAndFlag (byte_shr_toNat _) (shrFlag_toNat _) rfl,
    exec_writeResultAndFlag (byte_shl_toNat _) (shlFlag_toNat _) rfl⟩

end Sys2Proof.Machine
end

section
/-! SUPPORT. The index register and the memory transfers (spec/43_index_memory.md R91 to R95): the value of `I`, and the
stores of `FX55` and the loads of `FX65` with all addresses in memory and past its end. -/

namespace Sys2Proof.Machine

/-! The index register. -/

/-- Settles O40: the decoder reads the word back, and the load is a write of `I`. -/
theorem loadIndex : Obligations.LoadIndex := fun nnn s =>
  ⟨decode_encode (.ldI nnn), _, rfl, zextAddr_toNat nnn, setI_onlyChanges s _⟩

/-- Zero-extending a byte keeps its value (R8, R92). -/
theorem zextByte_toNat (b : Byte) : (zextByte b).toNat = b.toNat :=
  BitVec.toNat_setWidth_of_le (by decide)

/-- The sum of `I` and a byte wraps at 65536, at most once (R92, D7; log 11). -/
theorem word_add_zextByte_toNat (w : Word) (b : Byte) : (w + zextByte b).toNat =
    if w.toNat + b.toNat < 65536 then w.toNat + b.toNat else w.toNat + b.toNat - 65536 := by
  rw [BitVec.toNat_add, zextByte_toNat]
  split <;> omega

/-- Settles O41, by the value of the sum; the addition is a write of `I`. -/
theorem addToIndexWraps : Obligations.AddToIndexWraps := fun _ s =>
  ⟨_, rfl, word_add_zextByte_toNat _ _, setI_onlyChanges s _⟩

/-! The stores. -/

/-- `FX55` whose last address lies in memory leaves every byte that is at no `I + k` (R94). -/
theorem storeRegs_byte_of_ne {x : RegIdx} {s : State} {a : Nat} (hm : s.mem.wf) (hx : effAddr s x.toNat ≤ 4095)
    (ha : ∀ k, k ≤ x.toNat → a ≠ effAddr s k) :
    (iterAccess (storeReg (effAddr s 0)) (regCount x) 0 s).byte a = s.byte a := by
  have hcount : effAddr s 0 + 0 + regCount x ≤ 4096 := Nat.succ_le_succ hx
  rw [storeRegs_bytes _ _ _ s hm hcount]
  refine if_neg fun ⟨hlow, hhigh⟩ => ?_
  have hcell : effAddr s (a - effAddr s 0) = a := Nat.add_sub_cancel' hlow
  exact ha (a - effAddr s 0) (by simp only [regCount] at hhigh; omega) hcell.symm

/-- Settles O42: all stores are made, and they are the only change. -/
theorem storeRegistersWritesMemory : Obligations.StoreRegistersWritesMemory := fun _ _ hm hx =>
  ⟨_, exec_storeRegs_inBounds hx, fun _ hk => storeRegs_byte_effAddr hm hx hk,
    fun _ ha => storeRegs_byte_of_ne hm hx ha, storeRegs_onlyChanges _ _ _ _⟩

/-- Settles O43, from the state a faulting store leaves and the frame of the instruction. -/
theorem storeRegistersPastTheEndFaults : Obligations.StoreRegistersPastTheEndFaults := by
  intro x s hm hx
  obtain ⟨t, ht⟩ := exec_next (.storeRegs x) s
  obtain ⟨took, stored, kept⟩ := exec_storeRegs_fault ht hx
  exact ⟨t, ht, took, stored hm, kept hm, (exec_onlyChanges ht).mono (by simp [changedParts])⟩

/-! The loads. -/

/-- `FX65` whose last address lies in memory makes all its loads (R93, R95). -/
theorem exec_loadRegs_inBounds {x : RegIdx} {s : State} (hx : effAddr s x.toNat ≤ 4095) :
    exec (.loadRegs x) s = .next (iterAccess (loadReg (effAddr s 0)) (regCount x) 0 s) := by
  have hcount : regCount x ≤ 4096 - effAddr s 0 := Nat.not_lt.1 (mt regCount_past_iff.1 (by omega))
  exact congrArg Host.Outcome.next (accessLoop_inBounds _ _ _ _ _ hcount)

/-- After the loads of `FX65` the register `V[k]` holds the byte at `I + k`, for `k` up to `X` (R95). -/
theorem loadRegs_reg_regOf {x : RegIdx} {s : State} {k : Nat} (hk : k ≤ x.toNat) :
    (iterAccess (loadReg (effAddr s 0)) (regCount x) 0 s).reg (regOf k) = s.byte (effAddr s k) := by
  have hcount : 0 + regCount x ≤ 16 := (Nat.zero_add _).trans_le x.isLt
  have hk15 : k ≤ 15 := hk.trans (Nat.le_of_lt_succ x.isLt)
  rw [loadRegs_regs _ _ _ _ hcount, regOf_toNat hk15, if_pos (by simp only [regCount]; omega), ← effAddr_eq_add]

/-- Settles O44: all loads are made, and `V[0]` to `V[X]` are the only change. -/
theorem loadRegistersReadsMemory : Obligations.LoadRegistersReadsMemory := fun _ _ hx =>
  ⟨_, exec_loadRegs_inBounds hx, fun _ hk => loadRegs_reg_regOf hk,
    exec_sameRegsBut (exec_loadRegs_inBounds hx), loadRegs_onlyChanges _ _ _ _⟩

/-- Settles O45, from the state a faulting load leaves and the frame of the instruction. -/
theorem loadRegistersPastTheEndFaults : Obligations.LoadRegistersPastTheEndFaults := by
  intro x s hx
  obtain ⟨t, ht⟩ := exec_next (.loadRegs x) s
  obtain ⟨took, loaded, kept⟩ := exec_loadRegs_fault ht hx
  exact ⟨t, ht, took, loaded, kept, (exec_onlyChanges ht).mono (by simp [changedParts])⟩

/-! The round trip. -/

/-- The register of a register's number is that register (R48). -/
theorem regOf_toNat_self (x : RegIdx) : regOf x.toNat = x := by
  rw [regOf, BitVec.ofNat_toNat, BitVec.setWidth_eq]

/-- Settles O46: the store keeps `I` and the registers, so the load reads `V[0]` to `V[X]` back from where they were
stored and leaves the others. -/
theorem storeThenLoadReloads : Obligations.StoreThenLoadReloads := by
  intro x s hm hx
  obtain ⟨t, ht, hstored, -, frame⟩ := storeRegistersWritesMemory x s hm hx
  have haddr : ∀ k, effAddr (advance t) k = effAddr s k := fun k =>
    congrArg (fun w : Word => w.toNat + k) (frame .i (by simp))
  obtain ⟨u, hu, hloaded, hkept, -⟩ := loadRegistersReadsMemory x (advance t) ((haddr _).trans_le hx)
  refine ⟨t, u, ht, hu, fun r _ => ?_⟩
  by_cases hr : r.toNat ≤ x.toNat
  · rw [← regOf_toNat_self r, hloaded _ hr, haddr, advance_byte, hstored _ hr]
  · rw [hkept r (mt mem_regsUpTo.1 hr), advance_reg]
    exact frame .regs (by simp) r

end Sys2Proof.Machine
end

section
/-! SUPPORT. The Display (spec/44_display.md R96 to R101): the clear, the draw with all rows in memory and past its end,
the second draw of the same sprite, and the draws that cannot collide. -/

namespace Sys2Proof.Machine

/-! The clear. -/

/-- Settles O48: the encoder gives the one word back, and the clear leaves the blank Display. -/
theorem clearDisplay : Obligations.ClearDisplay := by
  refine ⟨fun w => ⟨fun hw => (encode_of_decode hw).symm, ?_⟩, fun s => ?_⟩
  · rintro rfl
    exact decode_encode .cls
  · exact ⟨s.clearDisplay, s.clearDisplay.clearDisplay, rfl, s.clearDisplay_pixel, clearDisplay_onlyChanges s, rfl, rfl⟩

section
variable {s t u : State} {x y : RegIdx} {n : Nibble} {m : Nat}

/-! The draw, with all rows in memory and past its end. -/

/-- A draw completes at most the rows on the Display (R99). -/
theorem rowsDrawn_le (s : State) (y : RegIdx) (n : Nibble) :
    rowsDrawn n.toNat (startRow s y) (effAddr s 0) ≤ rowsOnDisplay s y n := Nat.min_le_left _ _

/-- With every row on the Display in memory, a draw completes all of them (R98, R99). -/
theorem rowsDrawn_inBounds (hin : rowsOnDisplay s y n = 0 ∨ effAddr s (rowsOnDisplay s y n - 1) ≤ 4095) :
    rowsDrawn n.toNat (startRow s y) (effAddr s 0) = rowsOnDisplay s y n := by
  rw [effAddr_eq_add s (rowsOnDisplay s y n - 1)] at hin
  rw [rowsDrawn_eq_min]
  omega

/-- With every row on the Display in memory, a draw takes no fault and changes registers and Display only (R98, R99). -/
theorem exec_drw_onlyChanges_inBounds (hin : rowsOnDisplay s y n = 0 ∨ effAddr s (rowsOnDisplay s y n - 1) ≤ 4095)
    (h : exec (.drw x y n) s = .next t) : OnlyChanges [.regs, .display] s t := by
  have frame := exec_onlyChanges h
  obtain rfl := Host.Outcome.next.inj h
  obtain ⟨hdone, -⟩ := drawRows_status (effAddr s 0) (startColumn s x) n.toNat 0 _ (s.setFlag 0) (startRow_lt s y)
  obtain ⟨hrun, hfault⟩ := hdone (rowsDrawn_inBounds hin)
  intro p hp
  cases p
  case runState => exact hrun
  case fault => exact hfault
  case regs | display => simp at hp
  all_goals exact frame _ (by simp [changedParts])

/-! What drawn rows say of each cell and of the flag (R99). -/

/-- A cell under the drawn rows is XORed with its sprite bit, a cell beside them is as before (R99). -/
theorem Drawn.pixel_cases (h : Drawn s t x y m) (k : Nat) :
    (∃ r c, r < m ∧ c < columnsOnDisplay s x ∧ k = spriteCell s x y r c ∧
      t.pixel k = (s.pixel k ^^ spritePixel s r c)) ∨
    ((∀ r c, r < m → c < columnsOnDisplay s x → k ≠ spriteCell s x y r c) ∧ t.pixel k = s.pixel k) := by
  obtain ⟨hunder, hbeside, -, -⟩ := h
  by_cases hk : ∃ r c, r < m ∧ c < columnsOnDisplay s x ∧ k = spriteCell s x y r c
  · obtain ⟨r, c, hr, hc, rfl⟩ := hk
    exact .inl ⟨r, c, hr, hc, rfl, hunder r c hr hc⟩
  · have hfree : ∀ r c, r < m → c < columnsOnDisplay s x → k ≠ spriteCell s x y r c :=
      fun r c hr hc hcell => hk ⟨r, c, hr, hc, hcell⟩
    exact .inr ⟨hfree, hbeside k hfree⟩

/-- The advance to the next instruction keeps the rows drawn (R62). -/
theorem Drawn.advance (h : Drawn s t x y m) : Drawn s (advance t) x y m := h

/-- The flag is 1 exactly on a collision (R99). -/
theorem Drawn.flag_eq_one_iff (h : Drawn s t x y m) : t.reg 0xF = 1 ↔ Collides s x y m := by
  obtain ⟨-, -, hit, miss⟩ := h
  refine ⟨fun hone => Classical.byContradiction fun hcol => ?_, hit⟩
  exact absurd (hone.symm.trans (miss hcol)) (by decide)

/-- Two Displays with the same cells are the same (R20). -/
theorem display_eq_of_pixel (h : ∀ k, t.pixel k = s.pixel k) : t.display = s.display :=
  Screen.ext_cells _ _ fun k _ => h k

/-! The same sprite drawn again. -/

/-- The two states agree on what a draw reads beside the Display: its coordinates, `I` and the sprite's bytes (R98). -/
structure SameSprite (x y : RegIdx) (s s' : State) : Prop where
  column : s'.reg x = s.reg x
  row : s'.reg y = s.reg y
  index : s'.i = s.i
  byte : ∀ a, s'.byte a = s.byte a

namespace SameSprite

/-! So they agree on the rows, the columns, the cells and the bits of the closed form (R99). -/

variable {s' : State} (h : SameSprite x y s s')
include h

theorem startColumn : startColumn s' x = startColumn s x := by rw [Machine.startColumn, h.column, Machine.startColumn]

theorem startRow : startRow s' y = startRow s y := by rw [Machine.startRow, h.row, Machine.startRow]

theorem effAddr (k : Nat) : effAddr s' k = effAddr s k := by rw [Machine.effAddr, h.index, Machine.effAddr]

theorem columnsOnDisplay : columnsOnDisplay s' x = columnsOnDisplay s x := by
  rw [Machine.columnsOnDisplay, h.startColumn, Machine.columnsOnDisplay]

theorem spriteCell (r c : Nat) : spriteCell s' x y r c = spriteCell s x y r c := by
  rw [Machine.spriteCell, h.startColumn, h.startRow, Machine.spriteCell]

theorem spritePixel (r c : Nat) : spritePixel s' r c = spritePixel s r c := by
  rw [Machine.spritePixel, h.effAddr, h.byte, Machine.spritePixel]

end SameSprite

/-- After a draw that leaves `V[X]` and `V[Y]` as they were, the next draw is of the same sprite (R100 (a)). -/
theorem exec_drw_sameSprite (h : exec (.drw x y n) s = .next t) (hx : t.reg x = s.reg x) (hy : t.reg y = s.reg y) :
    SameSprite x y s (advance t) :=
  ⟨hx, hy, exec_onlyChanges h .i (by simp [changedParts]), exec_onlyChanges h .memory (by simp [changedParts])⟩

/-- Two draws of the same rows cancel in every cell (R100 (a)). -/
theorem Drawn.twice_pixel (hsprite : SameSprite x y s t) (hst : Drawn s t x y m) (htu : Drawn t u x y m) (k : Nat) :
    u.pixel k = s.pixel k := by
  obtain ⟨hagain, hbeside, -, -⟩ := htu
  simp only [hsprite.columnsOnDisplay, hsprite.spriteCell, hsprite.spritePixel] at hagain hbeside
  obtain ⟨r, c, hr, hc, rfl, hxor⟩ | ⟨hk, hsame⟩ := hst.pixel_cases k
  · rw [hagain r c hr hc, hxor, Bool.xor_assoc, Bool.xor_self, Bool.xor_false]
  · rw [hbeside k hk, hsame]

/-- The second of two draws collides exactly where the first turned a cell from 0 to 1 (R100 (a)). -/
theorem Drawn.collides_again_iff (hsprite : SameSprite x y s t) (hst : Drawn s t x y m) :
    Collides t x y m ↔ ∃ r c, r < m ∧ c < columnsOnDisplay s x ∧
      s.pixel (spriteCell s x y r c) = false ∧ spritePixel s r c = true := by
  obtain ⟨hunder, -, -, -⟩ := hst
  simp only [Collides, hsprite.columnsOnDisplay, hsprite.spriteCell, hsprite.spritePixel]
  refine exists_congr fun r => exists_congr fun c => and_congr_right fun hr => and_congr_right fun hc => ?_
  refine and_congr_left fun hbit => ?_
  rw [hunder r c hr hc, hbit, Bool.xor_true, Bool.not_eq_true']

/-! Draws that cannot collide. -/

/-- Without a collision of the rows on the Display a draw gives flag 0, whether or not it faults (R99). -/
theorem exec_drw_flag_of_not_collides (h : exec (.drw x y n) s = .next t)
    (hcol : ¬ Collides s x y (rowsOnDisplay s y n)) : t.reg 0xF = 0 := by
  obtain ⟨-, -, -, miss⟩ := exec_drw_drawn h
  exact miss fun ⟨r, c, hr, hit⟩ => hcol ⟨r, c, hr.trans_le (rowsDrawn_le s y n), hit⟩

/-- A draw whose bits on the Display are all 0 changes no cell, whether or not it faults (R100 (c)). -/
theorem exec_drw_display_of_blank (h : exec (.drw x y n) s = .next t)
    (hblank : ∀ r c, r < rowsOnDisplay s y n → c < columnsOnDisplay s x → spritePixel s r c = false) :
    t.display = s.display := by
  refine display_eq_of_pixel fun k => ?_
  obtain ⟨r, c, hr, hc, -, hxor⟩ | ⟨-, hsame⟩ := (exec_drw_drawn h).pixel_cases k
  · rw [hxor, hblank r c (hr.trans_le (rowsDrawn_le s y n)) hc, Bool.xor_false]
  · exact hsame

end

/-! The statements of the draw. -/

/-- Settles O49: the rows the draw completes are all those on the Display. -/
theorem drawMeetsClosedForm : Obligations.DrawMeetsClosedForm := by
  intro x y n s hin
  obtain ⟨t, ht⟩ := exec_next (.drw x y n) s
  have hdrawn := exec_drw_drawn ht
  rw [rowsDrawn_inBounds hin] at hdrawn
  exact ⟨t, ht, hdrawn, exec_sameRegsBut ht, exec_drw_onlyChanges_inBounds hin ht⟩

/-- Settles O50, from the state a faulting draw leaves and the frame of the instruction. -/
theorem drawPastTheEndFaults : Obligations.DrawPastTheEndFaults := by
  intro x y n s hrows hlast
  obtain ⟨t, ht⟩ := exec_next (.drw x y n) s
  obtain ⟨took, hdrawn⟩ := exec_drw_fault ht hrows hlast
  exact ⟨t, ht, hdrawn, took, exec_sameRegsBut ht, exec_onlyChanges ht⟩

/-- Settles O51: both draws meet the closed form, with the same rows, columns, cells and bits. -/
theorem drawTwiceRestoresDisplay : Obligations.DrawTwiceRestoresDisplay := by
  intro x y n s t hin ht hx hy
  have hsprite := exec_drw_sameSprite ht hx hy
  obtain ⟨u, hu⟩ := exec_next (.drw x y n) (advance t)
  have hfirst := (exec_drw_drawn ht).advance
  have hsecond := exec_drw_drawn hu
  rw [hsprite.startRow, hsprite.effAddr] at hsecond
  rw [rowsDrawn_inBounds hin] at hfirst hsecond
  refine ⟨u, hu, display_eq_of_pixel (hfirst.twice_pixel hsprite hsecond), ?_, ?_⟩
  · rw [hsecond.flag_eq_one_iff, hfirst.collides_again_iff hsprite]
  · exact flagIsZeroOrOne x y n _ _ _ (by simp) hu

/-- Settles O52: on an empty area, with a blank sprite, and with no rows, no bit 1 falls on a set cell. -/
theorem drawWithoutCollision : Obligations.DrawWithoutCollision := by
  intro x y n s t h
  refine ⟨fun hempty => ?_, fun hblank => ⟨?_, exec_drw_display_of_blank h hblank⟩, ?_⟩
  · exact exec_drw_flag_of_not_collides h fun ⟨r, c, hr, hc, hset, _⟩ =>
      Bool.false_ne_true ((hempty r c hr hc).symm.trans hset)
  · exact exec_drw_flag_of_not_collides h fun ⟨r, c, hr, hc, _, hbit⟩ =>
      Bool.false_ne_true ((hblank r c hr hc).symm.trans hbit)
  · rintro rfl
    obtain rfl := Host.Outcome.next.inj h
    exact ⟨State.setFlag_reg s 0 0xF, setReg_onlyChanges s _ _⟩

end Sys2Proof.Machine
end

section
/-! SUPPORT. The host's commands beside `step` (spec/60_exceptions.md R112 to R118, spec/70_reset_and_hazards.md R123): what
each does to the state and what it leaves, that `tick` and `step` commute, and what the outputs show (R102, R119). -/

namespace Sys2Proof.Machine

/-- Settles O13, command by command (`runCommand_keeps_inv`). -/
theorem commandsKeepInvariant : Obligations.CommandsKeepInvariant := fun _ _ _ _ hs h => runCommand_keeps_inv hs h

/-- No change is within every frame. -/
theorem OnlyChanges.refl (ps : List Part) (s : State) : OnlyChanges ps s s := fun p _ => Part.same_refl s p

/-! `tick` (R116, R117). -/

/-- One decrement is a subtraction of 1 that stops at 0 (R116). -/
theorem countDown_toNat (b : Byte) : (countDown b).toNat = b.toNat - 1 := by
  unfold countDown
  split
  next hb => simp [hb]
  next hb => bv_omega

/-- `k` decrements are a subtraction of `k` that stops at 0 (R116). -/
theorem countDown_iterate_toNat (k : Nat) (b : Byte) : (countDown^[k] b).toNat = b.toNat - k := by
  induction k with
  | zero => rfl
  | succ k ih => rw [Function.iterate_succ_apply', countDown_toNat, ih, Nat.sub_add_eq]

/-- A tick changes the two counters only (R116). -/
theorem tick_onlyChanges (s : State) : OnlyChanges [.delay, .sound] s (tick s) := by
  intro p hp
  cases p <;> simp_all [Part.same]

/-- Any number of ticks changes the two counters only (R116). -/
theorem tick_iterate_onlyChanges (k : Nat) (s : State) : OnlyChanges [.delay, .sound] s (tick^[k] s) := by
  induction k with
  | zero => exact .refl _ s
  | succ k ih =>
    rw [Function.iterate_succ_apply']
    exact ih.trans (tick_onlyChanges _)

/-- Settles O53: `k` ticks decrement each counter `k` times and change nothing else. -/
theorem ticksCountDown : Obligations.TicksCountDown := by
  intro k s
  have hdelay : (tick^[k] s).delay = countDown^[k] s.delay := Function.Semiconj.iterate_right tick_delay k s
  have hsound : (tick^[k] s).sound = countDown^[k] s.sound := Function.Semiconj.iterate_right tick_sound k s
  rw [hdelay, hsound]
  exact ⟨countDown_iterate_toNat k _, countDown_iterate_toNat k _, tick_iterate_onlyChanges k s⟩

/-- A step leaves the counters and the keys as they are: given its own ones, it answers a state that holds them
(R21, R24). -/
theorem step_keeps_devices {s t : State} (h : step s = .next t) :
    t.delay = s.delay ∧ t.sound = s.sound ∧ t.keys = s.keys := by
  have hself : step s = .next (t.withDevices s.delay s.sound s.keys) :=
    timersAndKeysAreInvisible s t s.delay s.sound s.keys h
  have ht : t = t.withDevices s.delay s.sound s.keys := Host.Outcome.next.inj (h.symm.trans hself)
  exact ⟨(congrArg State.delay ht).trans rfl, (congrArg State.sound ht).trans rfl, (congrArg State.keys ht).trans rfl⟩

/-- A tick is a change of the counters alone (R116). -/
theorem tick_eq_withDevices (s : State) :
    tick s = s.withDevices (countDown s.delay) (countDown s.sound) s.keys := rfl

/-- A step after a tick is the tick of the step's next state (R117). -/
theorem step_tick_of_next {s t : State} (h : step s = .next t) : step (tick s) = .next (tick t) := by
  obtain ⟨hdelay, hsound, hkeys⟩ := step_keeps_devices h
  rw [tick_eq_withDevices t, hdelay, hsound, hkeys]
  exact timersAndKeysAreInvisible s t _ _ _ h

/-- Settles O23: a step sees no counter and changes none, and it stops in `Quit` alone, which a tick keeps. -/
theorem tickAndStepCommute : Obligations.TickAndStepCommute := by
  refine fun s => ⟨fun t => step_tick_of_next, fun f h => ?_⟩
  have hquit : s.runState = .quit := step_not_next s (by simp [h])
  rw [step_of_quit (s := tick s) hquit, ← step_of_quit hquit, h]

/-! `pause`, `resume`, `set_keys` and `reset` (R113, R114, R118, R123). -/

/-- The state in another run state (R22). -/
def State.withRunState (r : RunState) (s : State) : State := { s with runState := r }

/-- Another run state changes the run state only. -/
theorem withRunState_onlyChanges (r : RunState) (s : State) : OnlyChanges [.runState] s (s.withRunState r) := by
  intro p hp
  cases p <;> simp_all [Part.same, State.withRunState, State.reg, State.byte, State.pixel]

/-- `pause` takes Running to Paused (R113). -/
theorem pause_of_running {s : State} (h : s.runState = .running) : pause s = s.withRunState .paused := by
  simp only [pause, h, State.withRunState]

/-- `pause` does nothing outside Running (R113). -/
theorem pause_of_not_running {s : State} (h : s.runState ≠ .running) : pause s = s := by
  unfold pause
  split
  next hr => exact absurd hr h
  all_goals rfl

/-- `resume` takes Paused to Running (R114). -/
theorem resume_of_paused {s : State} (h : s.runState = .paused) : resume s = s.withRunState .running := by
  simp only [resume, h, State.withRunState]

/-- `resume` does nothing outside Paused (R114). -/
theorem resume_of_not_paused {s : State} (h : s.runState ≠ .paused) : resume s = s := by
  unfold resume
  split
  next => rfl
  next hr => exact absurd hr h
  next => rfl

/-- `pause` changes the run state only (R113). -/
theorem pause_onlyChanges (s : State) : OnlyChanges [.runState] s (pause s) := by
  by_cases h : s.runState = .running
  · rw [pause_of_running h]
    exact withRunState_onlyChanges _ s
  · rw [pause_of_not_running h]
    exact .refl _ s

/-- `resume` changes the run state only (R114). -/
theorem resume_onlyChanges (s : State) : OnlyChanges [.runState] s (resume s) := by
  by_cases h : s.runState = .paused
  · rw [resume_of_paused h]
    exact withRunState_onlyChanges _ s
  · rw [resume_of_not_paused h]
    exact .refl _ s

/-- `set_keys` changes the keys only (R118). -/
theorem setKeys_onlyChanges (k : Vector Bool 16) (s : State) : OnlyChanges [.keys] s (setKeys k s) := by
  intro p hp
  cases p <;> simp_all [Part.same]

/-- Settles O54, by what `pause` and `resume` do in and outside their run state and by the three frames. -/
theorem pauseResumeAndKeys : Obligations.PauseResumeAndKeys := fun s =>
  ⟨fun h => congrArg State.runState (pause_of_running h), pause_of_not_running,
    fun h => congrArg State.runState (resume_of_paused h), resume_of_not_paused,
    pause_onlyChanges s, resume_onlyChanges s, fun k => ⟨setKeys_keys s k, setKeys_onlyChanges k s⟩⟩

/-- Another count of drawn bytes changes that count only (log 4). -/
theorem withDraws_onlyChanges (n : Nat) (s : State) : OnlyChanges [.draws] s (s.withDraws n) := by
  intro p hp
  cases p <;> simp_all [Part.same, State.withDraws, State.reg, State.byte, State.pixel]

/-- `reset` answers the reset state with the count of drawn bytes it found (R123; log 4). -/
theorem resetMachine_eq_withDraws (s : State) : resetMachine s = State.reset.withDraws s.draws := rfl

/-- Settles O58: `reset` answers the reset state but for the count of drawn bytes. -/
theorem resetFromAnyState : Obligations.ResetFromAnyState := fun s =>
  ⟨resetMachine s, rfl, resetMachine_eq_withDraws s ▸ withDraws_onlyChanges s.draws State.reset, rfl⟩

/-! The outputs (R102, R119). -/

/-- The fault code is 0 for the empty latch only (R102). -/
theorem faultCode_eq_zero {f : Option FaultValue} : faultCode f = 0 ↔ f = none := by
  cases f with
  | none => simp [faultCode]
  | some f => cases f <;> simp [faultCode]

/-- In a state that meets the invariant the code shown is 0 exactly outside `Quit` (R102, R138). -/
theorem State.Inv.outputs_faultCode_eq_zero {s : State} (hs : s.Inv) :
    (outputs s).faultCode = 0 ↔ s.runState ≠ .quit :=
  faultCode_eq_zero.trans (not_not.symm.trans (not_congr hs.latch))

/-- `beep` is `sound > 0` (R119 (c)). -/
theorem outputs_beep (s : State) : (outputs s).beep = true ↔ 0 < s.sound.toNat := by
  simp only [outputs, decide_eq_true_eq]
  bv_omega

/-- The code and the payload shown are those of the latch (R102, R119). -/
theorem outputs_fault {s : State} {f : Option FaultValue} (h : s.fault = f) :
    (outputs s).faultCode = faultCode f ∧ (outputs s).faultPayload = faultPayload f := by
  subst h
  exact ⟨rfl, rfl⟩

/-- Settles O59: the outputs show the state's parts, and the latch by its code and payload. -/
theorem outputsShowFaultAndBeep : Obligations.OutputsShowFaultAndBeep := fun s hs =>
  ⟨fun _ => rfl, rfl, rfl, rfl, outputs_beep s, hs.outputs_faultCode_eq_zero, outputs_fault,
    fun _ => outputs_fault, outputs_fault, outputs_fault, fun _ => outputs_fault⟩

end Sys2Proof.Machine
end

section
/-! SUPPORT. Reset, load and the end of a run (spec/70_reset_and_hazards.md R124 to R132): what `load` answers to each length
of its arguments and what it leaves in memory, the first step without a `load`, and the jump to itself. -/

namespace Sys2Proof.Machine

/-! The three answers of `load` (R124, R126; the spec's D16, log 7). -/

section
variable {font program : List Byte} {s t : State}

/-- A font over 512 bytes is refused, whatever the program (D16; log 7). -/
theorem load_of_font_too_long (hfont : 512 < font.length) : load font program s = .fontTooLong :=
  if_pos hfont

/-- A font that fits and a program over 3584 bytes give `RomTooLarge` (R126). -/
theorem load_of_program_too_long (hfont : font.length ≤ 512) (hprogram : 3584 < program.length) :
    load font program s = .romTooLarge program.length := by
  simp only [load, progBase_eq, memSize_eq]
  rw [if_neg (by omega), if_pos (by omega)]

/-- A font and a program that fit are loaded (R125). -/
theorem exists_load_of_fits (hfont : font.length ≤ 512) (hprogram : program.length ≤ 3584) (s : State) :
    ∃ t, load font program s = .loaded t := by
  simp only [load, progBase_eq, memSize_eq]
  rw [if_neg (by omega), if_neg (by omega)]
  exact ⟨_, rfl⟩

/-! What a `load` that succeeds leaves. -/

/-- Outside the program's range memory reads as after the copy of the font (R125). -/
theorem load_byte_outside_program {a : Nat} (hm : s.mem.wf) (h : load font program s = .loaded t)
    (ha : a < 512 ∨ 512 + program.length ≤ a) : t.byte a = Memory.read (Memory.writeBytes s.mem 0 font) a := by
  obtain ⟨hfont, -, rfl⟩ := load_loaded h
  have hfontwf := Memory.writeBytes_wf font s.mem 0 hm (by simp only [memSize_eq]; omega)
  rw [State.byte, Memory.read_writeBytes _ _ _ hfontwf.1, dif_neg (by omega)]

/-- A byte of the font is read at its place from 0 on (R125). -/
theorem load_font_byte {k : Nat} (hm : s.mem.wf) (h : load font program s = .loaded t) (hk : k < font.length) :
    t.byte k = font[k] := by
  obtain ⟨hfont, -, -⟩ := load_loaded h
  rw [load_byte_outside_program hm h (.inl (by omega)), Memory.read_writeBytes _ _ _ hm.1, dif_pos ⟨k.zero_le, hk⟩]
  rfl

/-- A byte of neither copy is as before (R125). -/
theorem load_other_byte {a : Nat} (hm : s.mem.wf) (h : load font program s = .loaded t) (hfont : font.length ≤ a)
    (hprogram : a < 512 ∨ 512 + program.length ≤ a) : t.byte a = s.byte a := by
  rw [load_byte_outside_program hm h hprogram, Memory.read_writeBytes _ _ _ hm.1, dif_neg (by omega), State.byte]

/-- A `load` changes `pc` and memory only (R125, R129). -/
theorem load_onlyChanges (h : load font program s = .loaded t) : OnlyChanges [.pc, .memory] s t := by
  obtain ⟨-, -, rfl⟩ := load_loaded h
  intro p hp
  cases p <;> simp_all [Part.same, State.reg, State.pixel]

/-- The command passes on the state that a `load` that succeeds answers (R112, R125). -/
theorem runCommand_load_of_loaded (h : load font program s = .loaded t) :
    runCommand (.load font program) s = .next (t, .done) := by
  simp only [runCommand, h]

end

/-- Settles O55: what fits is copied, and a font that is too long is refused by the first check. -/
theorem loadCopiesFontAndProgram : Obligations.LoadCopiesFontAndProgram := by
  refine fun font program s => ⟨fun hm hfont hprogram => ?_, fun hfont => ?_⟩
  · simp only [fontFits, programFits, progBase_eq, memSize_eq, decide_eq_true_eq] at hfont hprogram
    obtain ⟨t, ht⟩ := exists_load_of_fits hfont (program := program) (by omega) s
    have hpc : t.pc = 0x200 := by obtain ⟨-, -, rfl⟩ := load_loaded ht; rfl
    exact ⟨t, ht, hpc, fun k hk => load_font_byte hm ht hk,
      fun k hk => load_program_byte hm ht (List.getElem?_eq_getElem hk), fun a => load_other_byte hm ht,
      load_onlyChanges ht⟩
  · simp only [runCommand, load_of_font_too_long hfont]

/-- Settles O56: the second check passes up to 3584 bytes, and byte 3583 of the program goes to 512 + 3583. -/
theorem romTooLarge : Obligations.RomTooLarge := by
  refine fun font program s hfont => ⟨fun hprogram => ?_, fun hprogram => ?_⟩
  · simp only [runCommand, load_of_program_too_long hfont hprogram]
  · obtain ⟨t, ht⟩ := exists_load_of_fits hfont hprogram s
    refine ⟨t, runCommand_load_of_loaded ht, fun hm hlen => ?_⟩
    have hlast : 3583 < program.length := by omega
    exact load_program_byte hm ht (List.getElem?_eq_getElem hlast)

/-! The first step without a `load` (R131; D2, log 1). -/

/-- After reset the fetch gives the word `0x0000` (D2; log 1). -/
theorem fetch_reset : fetch State.reset = some 0x0000 := by decide

/-- Settles O15: no row of the opcode map selects `0x0000`, so the step raises `UnimplementedOpcode`. -/
theorem runningWithoutLoad : Obligations.RunningWithoutLoad := by
  obtain ⟨t, hstep, htook, hpc, hframe⟩ := (dispatchOrUnimplementedOpcode State.reset 0x0000 rfl fetch_reset).2 (by decide)
  exact ⟨t, hstep, htook, BitVec.eq_of_toNat_eq hpc, hframe⟩

/-! The jump to itself (R132; D27, log 11). -/

/-- An address below 4096 is its own 12-bit field, zero-extended (R48). -/
theorem zextAddr_nnnField {p : Word} (hp : p.toNat < 4096) : zextAddr (nnnField p) = p := by
  apply BitVec.eq_of_toNat_eq
  rw [zextAddr_toNat, nnnField_toNat, Nat.mod_eq_of_lt hp]

/-- For an address below 4096 the word `0x1000 | p` is that of the jump to `p` (R69). -/
theorem encode_jp_nnnField {p : Word} (hp : p.toNat < 4096) : encode (.jp (nnnField p)) = 0x1000 ||| p := by
  apply BitVec.eq_of_toNat_eq
  have hor : 4096 + p.toNat = 4096 ||| p.toNat := Nat.two_pow_add_eq_or_of_lt (i := 12) hp 1
  rw [encode, encodeNnn_toNat, nnnField_toNat, Nat.mod_eq_of_lt hp, BitVec.toNat_or]
  exact hor

/-- Settles O60: the word at `pc` is the jump to `pc`, and its write of `pc` undoes the advance. -/
theorem finishedRunIsFixedPoint : Obligations.FinishedRunIsFixedPoint := by
  rintro s ⟨hrun, -, hfetch⟩
  obtain ⟨hbound, -⟩ := (fetch_eq_some s _).1 hfetch
  have hpc : s.pc.toNat < 4096 := by omega
  have hdecode : decode (0x1000 ||| s.pc) = .ok (.jp (nnnField s.pc)) := encode_jp_nnnField hpc ▸ decode_encode _
  calc step s = .next ((advance s).setPc (zextAddr (nnnField s.pc))) := step_of_decode_ok hrun hfetch hdecode
    _ = .next s := by rw [zextAddr_nnnField hpc]; rfl

end Sys2Proof.Machine
end
